-- ==== Sys2Proof/Word.lean ====
section
/-! DEFINITION. The word types of the hardware (spec/00_scope.md R5, R6): bytes, addresses, opcodes and the four-bit
fields of an opcode. -/

namespace Sys2Proof

/-- "Byte: 8-bit unsigned value": a general register, a timer, a memory cell (R5). -/
abbrev Byte := BitVec 8

/-- "Address: 16-bit unsigned value": PC, I and a stack slot (R5). -/
abbrev Addr := BitVec 16

/-- A 16-bit instruction word, bits 15..0 (R6). -/
abbrev Opcode := BitVec 16

/-- A 4-bit slice of an opcode (R6). -/
abbrev Nibble := BitVec 4

/-- A 12-bit address immediate, the field nnn (R6). -/
abbrev Imm12 := BitVec 12

/-- The index of a general register, 0..15, the fields x and y (R12). -/
abbrev RegIdx := Fin 16

/-- A key, by its index: key `Keyh` of 44_keypad.md R86 is `h`. -/
abbrev Key := Fin 16

end Sys2Proof
end

