-- ==== Sys2Proof/Syntax.lean ====
section
/-! DEFINITION. The instructions: one constructor per row of spec/opcode_table.json (30_encoding.md R49). -/

namespace Sys2Proof

/-- The 35 instructions of 30_encoding.md R49. `x`, `y` are register indices, `kk` the byte, `nnn` the 12-bit address, `n` the
sprite height. `shr` and `shl` keep the y field that their execution ignores (R47), so that an instruction determines its word. -/
inductive Instr where
  /-- `0nnn` SYS addr (R73). -/
  | sys (nnn : Imm12)
  /-- `00E0` CLS (R95). -/
  | cls
  /-- `00EE` RET (R76). -/
  | ret
  /-- `1nnn` JP addr (R74). -/
  | jp (nnn : Imm12)
  /-- `2nnn` CALL addr (R75). -/
  | call (nnn : Imm12)
  /-- `3xkk` SE Vx, byte (R78). -/
  | seByte (x : RegIdx) (kk : Byte)
  /-- `4xkk` SNE Vx, byte (R79). -/
  | sneByte (x : RegIdx) (kk : Byte)
  /-- `5xy0` SE Vx, Vy (R80). -/
  | seReg (x y : RegIdx)
  /-- `6xkk` LD Vx, byte (R58). -/
  | ldByte (x : RegIdx) (kk : Byte)
  /-- `7xkk` ADD Vx, byte (R59). -/
  | addByte (x : RegIdx) (kk : Byte)
  /-- `8xy0` LD Vx, Vy (R60). -/
  | ldReg (x y : RegIdx)
  /-- `8xy1` OR Vx, Vy (R61). -/
  | orReg (x y : RegIdx)
  /-- `8xy2` AND Vx, Vy (R62). -/
  | andReg (x y : RegIdx)
  /-- `8xy3` XOR Vx, Vy (R63). -/
  | xorReg (x y : RegIdx)
  /-- `8xy4` ADD Vx, Vy (R64). -/
  | addReg (x y : RegIdx)
  /-- `8xy5` SUB Vx, Vy (R65). -/
  | subReg (x y : RegIdx)
  /-- `8xy6` SHR Vx {, Vy}, y ignored (R67). -/
  | shr (x y : RegIdx)
  /-- `8xy7` SUBN Vx, Vy (R66). -/
  | subnReg (x y : RegIdx)
  /-- `8xyE` SHL Vx {, Vy}, y ignored (R68). -/
  | shl (x y : RegIdx)
  /-- `9xy0` SNE Vx, Vy (R81). -/
  | sneReg (x y : RegIdx)
  /-- `Annn` LD I, addr (R97). -/
  | ldI (nnn : Imm12)
  /-- `Bnnn` JP V0, addr (R77). -/
  | jpV0 (nnn : Imm12)
  /-- `Cxkk` RND Vx, byte (R69). -/
  | rnd (x : RegIdx) (kk : Byte)
  /-- `Dxyn` DRW Vx, Vy, nibble (R96). -/
  | drw (x y : RegIdx) (n : Nibble)
  /-- `Ex9E` SKP Vx (R89). -/
  | skp (x : RegIdx)
  /-- `ExA1` SKNP Vx (R90). -/
  | sknp (x : RegIdx)
  /-- `Fx07` LD Vx, DT (R83). -/
  | ldVxDt (x : RegIdx)
  /-- `Fx0A` LD Vx, K (R91). -/
  | ldVxK (x : RegIdx)
  /-- `Fx15` LD DT, Vx (R84). -/
  | ldDtVx (x : RegIdx)
  /-- `Fx18` LD ST, Vx (R85). -/
  | ldStVx (x : RegIdx)
  /-- `Fx1E` ADD I, Vx (R98). -/
  | addI (x : RegIdx)
  /-- `Fx29` LD F, Vx (R99). -/
  | ldF (x : RegIdx)
  /-- `Fx33` LD B, Vx (R100). -/
  | ldB (x : RegIdx)
  /-- `Fx55` LD [I], Vx (R101). -/
  | storeRegs (x : RegIdx)
  /-- `Fx65` LD Vx, [I] (R102). -/
  | loadRegs (x : RegIdx)
  deriving DecidableEq, Repr

end Sys2Proof
end

