-- ==== Sys2Proof/Decode.lean ====
section
/-! DEFINITION. Decoding (30_encoding.md R46 to R51): the fields of an opcode, the total function `decode`, the decoder over
bytes, and the encoder. -/

namespace Sys2Proof

/-- Why a byte sequence is no instruction. -/
inductive DecodeReject where
  /-- "no instruction matches the bit pattern"; carries the original opcode (30_encoding.md R48, R50). -/
  | illegal (op : Opcode)
  /-- Fewer than two bytes were given to the byte-level decoder; a fetch never gives it fewer. -/
  | truncated
  deriving DecidableEq, Repr

/-- The major opcode `o = op[15:12]` (00_scope.md R6). -/
def fieldO (op : Opcode) : Nibble := op.extractLsb' 12 4

/-- The register index `x = op[11:8]` (R6, 30_encoding.md R47). -/
def fieldX (op : Opcode) : RegIdx := (op.extractLsb' 8 4).toFin

/-- The register index `y = op[7:4]` (R6, R47). -/
def fieldY (op : Opcode) : RegIdx := (op.extractLsb' 4 4).toFin

/-- The low nibble `n = op[3:0]` (R6, R47). -/
def fieldN (op : Opcode) : Nibble := op.extractLsb' 0 4

/-- The byte `kk = op[7:0]` (R6, R47). -/
def fieldKK (op : Opcode) : Byte := op.extractLsb' 0 8

/-- The 12-bit address `nnn = op[11:0]` (R6, R47). -/
def fieldNNN (op : Opcode) : Imm12 := op.extractLsb' 0 12

/-- Leading field 0: the two exact words first, then SYS (R48). -/
def decode0 (op : Opcode) : Except DecodeReject Instr :=
  if op = 0x00E0#16 then .ok .cls
  else if op = 0x00EE#16 then .ok .ret
  else .ok (.sys (fieldNNN op))

/-- Leading field 8: by the low nibble (R48). -/
def decode8 (op : Opcode) : Except DecodeReject Instr :=
  let x := fieldX op
  let y := fieldY op
  match fieldN op with
  | 0x0#4 => .ok (.ldReg x y)
  | 0x1#4 => .ok (.orReg x y)
  | 0x2#4 => .ok (.andReg x y)
  | 0x3#4 => .ok (.xorReg x y)
  | 0x4#4 => .ok (.addReg x y)
  | 0x5#4 => .ok (.subReg x y)
  | 0x6#4 => .ok (.shr x y)
  | 0x7#4 => .ok (.subnReg x y)
  | 0xE#4 => .ok (.shl x y)
  | _ => .error (.illegal op)

/-- Leading field E: by the low byte (R48). -/
def decodeE (op : Opcode) : Except DecodeReject Instr :=
  let x := fieldX op
  match fieldKK op with
  | 0x9E#8 => .ok (.skp x)
  | 0xA1#8 => .ok (.sknp x)
  | _ => .error (.illegal op)

/-- Leading field F: by the low byte (R48). -/
def decodeF (op : Opcode) : Except DecodeReject Instr :=
  let x := fieldX op
  match fieldKK op with
  | 0x07#8 => .ok (.ldVxDt x)
  | 0x0A#8 => .ok (.ldVxK x)
  | 0x15#8 => .ok (.ldDtVx x)
  | 0x18#8 => .ok (.ldStVx x)
  | 0x1E#8 => .ok (.addI x)
  | 0x29#8 => .ok (.ldF x)
  | 0x33#8 => .ok (.ldB x)
  | 0x55#8 => .ok (.storeRegs x)
  | 0x65#8 => .ok (.loadRegs x)
  | _ => .error (.illegal op)

/-- `Decode(op)` of 30_encoding.md R48: total, reads no state, and answers the illegal words with the word itself. -/
def decode (op : Opcode) : Except DecodeReject Instr :=
  match fieldO op with
  | 0x0#4 => decode0 op
  | 0x1#4 => .ok (.jp (fieldNNN op))
  | 0x2#4 => .ok (.call (fieldNNN op))
  | 0x3#4 => .ok (.seByte (fieldX op) (fieldKK op))
  | 0x4#4 => .ok (.sneByte (fieldX op) (fieldKK op))
  | 0x5#4 => if fieldN op = 0x0#4 then .ok (.seReg (fieldX op) (fieldY op)) else .error (.illegal op)
  | 0x6#4 => .ok (.ldByte (fieldX op) (fieldKK op))
  | 0x7#4 => .ok (.addByte (fieldX op) (fieldKK op))
  | 0x8#4 => decode8 op
  | 0x9#4 => if fieldN op = 0x0#4 then .ok (.sneReg (fieldX op) (fieldY op)) else .error (.illegal op)
  | 0xA#4 => .ok (.ldI (fieldNNN op))
  | 0xB#4 => .ok (.jpV0 (fieldNNN op))
  | 0xC#4 => .ok (.rnd (fieldX op) (fieldKK op))
  | 0xD#4 => .ok (.drw (fieldX op) (fieldY op) (fieldN op))
  | 0xE#4 => decodeE op
  | _ => decodeF op

/-- An opcode from its two bytes, the high byte at the lower address (20_memory.md R36, R45). -/
def opcodeOfBytes (hi lo : Byte) : Opcode := hi ++ lo

/-- The two bytes of an opcode in memory order, high byte first (R36). -/
def bytesOfOpcode (op : Opcode) : List Byte := [op.extractLsb' 8 8, op.extractLsb' 0 8]

/-- The instruction at the head of a byte sequence, with the bytes after it (R46, R51: every instruction is two bytes). -/
def decodeBytes : List Byte → Except DecodeReject (Instr × List Byte)
  | hi :: lo :: rest =>
    match decode (opcodeOfBytes hi lo) with
    | .ok i => .ok (i, rest)
    | .error r => .error r
  | [_] => .error .truncated
  | [] => .error .truncated

/-- The opcode that spec/opcode_table.json's numbering of the bits of `w` describes: bit 0 is the least significant bit of the
word, and the bits at and above `nbits` are 0. -/
def tableOpcode (nbits w : Nat) : Opcode := BitVec.ofNat 16 (w % 2 ^ nbits)

/-- The instruction the decoder reads from an instruction whose bits are `w`, laid out in memory order. -/
def decodeTableWord (nbits w : Nat) : Option Instr :=
  match decodeBytes (bytesOfOpcode (tableOpcode nbits w)) with
  | .ok (i, _) => some i
  | .error _ => none

/-- A register index as a field of an opcode. -/
def regField (r : RegIdx) : Nibble := BitVec.ofFin r

/-- The form NNN: major opcode and 12-bit address (30_encoding.md R46). -/
def encNNN (o : Nibble) (nnn : Imm12) : Opcode := o ++ nnn

/-- The forms XKK and XF: major opcode, register, and a byte or a function code (R46). -/
def encXKK (o : Nibble) (x : RegIdx) (kk : Byte) : Opcode := o ++ regField x ++ kk

/-- The forms XYN and XYH: major opcode, two registers, and a function code or a height (R46). -/
def encXYN (o : Nibble) (x y : RegIdx) (n : Nibble) : Opcode := o ++ regField x ++ regField y ++ n

/-- The opcode of an instruction, from the patterns of 30_encoding.md R49. -/
def encode : Instr → Opcode
  | .sys nnn => encNNN 0x0 nnn
  | .cls => 0x00E0#16
  | .ret => 0x00EE#16
  | .jp nnn => encNNN 0x1 nnn
  | .call nnn => encNNN 0x2 nnn
  | .seByte x kk => encXKK 0x3 x kk
  | .sneByte x kk => encXKK 0x4 x kk
  | .seReg x y => encXYN 0x5 x y 0x0
  | .ldByte x kk => encXKK 0x6 x kk
  | .addByte x kk => encXKK 0x7 x kk
  | .ldReg x y => encXYN 0x8 x y 0x0
  | .orReg x y => encXYN 0x8 x y 0x1
  | .andReg x y => encXYN 0x8 x y 0x2
  | .xorReg x y => encXYN 0x8 x y 0x3
  | .addReg x y => encXYN 0x8 x y 0x4
  | .subReg x y => encXYN 0x8 x y 0x5
  | .shr x y => encXYN 0x8 x y 0x6
  | .subnReg x y => encXYN 0x8 x y 0x7
  | .shl x y => encXYN 0x8 x y 0xE
  | .sneReg x y => encXYN 0x9 x y 0x0
  | .ldI nnn => encNNN 0xA nnn
  | .jpV0 nnn => encNNN 0xB nnn
  | .rnd x kk => encXKK 0xC x kk
  | .drw x y n => encXYN 0xD x y n
  | .skp x => encXKK 0xE x 0x9E
  | .sknp x => encXKK 0xE x 0xA1
  | .ldVxDt x => encXKK 0xF x 0x07
  | .ldVxK x => encXKK 0xF x 0x0A
  | .ldDtVx x => encXKK 0xF x 0x15
  | .ldStVx x => encXKK 0xF x 0x18
  | .addI x => encXKK 0xF x 0x1E
  | .ldF x => encXKK 0xF x 0x29
  | .ldB x => encXKK 0xF x 0x33
  | .storeRegs x => encXKK 0xF x 0x55
  | .loadRegs x => encXKK 0xF x 0x65

/-- The bytes of an instruction in memory order (R36, R46). -/
def encodeBytes (i : Instr) : List Byte := bytesOfOpcode (encode i)

end Sys2Proof
end

