-- ==== Sys2Proof/Config.lean ====
section
/-! DEFINITION. What this hardware fixes (the parameter table of spec/00_scope.md R5) and the one free value, the random
byte. -/

namespace Sys2Proof.Config

/-- MEM_SIZE: 4096 bytes (R5, 20_memory.md R28). -/
@[reducible, simp] def memSize : Nat := 4096

/-- ORIGIN: program load address and reset PC (R5). -/
@[reducible, simp] def origin : Nat := 0x200

/-- FONT_BASE: where the glyph table starts (R5). -/
@[reducible, simp] def fontBase : Nat := 0x000

/-- Bytes per glyph (R5). -/
@[reducible, simp] def glyphBytes : Nat := 5

/-- STACK_CAPACITY: 16 return addresses (R5; conflict C1, decision D15). -/
@[reducible, simp] def stackCapacity : Nat := 16

/-- Columns of the framebuffer (R5). -/
@[reducible, simp] def columns : Nat := 64

/-- Rows of the framebuffer (R5). -/
@[reducible, simp] def rows : Nat := 32

/-- MAX_PROGRAM: the longest program `load` accepts, 0x200..0xFFF (R5, decision D17). -/
@[reducible, simp] def maxProgram : Nat := 3584

/-- The random byte the environment supplies to the `n`-th RND that executes (41_load_alu.md R69: "no rule constrains it").
A free value: it has no body, so nothing can be proved of it. DESIGN CHOICE, safe, log entry 2. -/
opaque randomByte : Nat → Byte

end Sys2Proof.Config
end

