-- ==== Sys2Proof/Machine/Memory.lean ====
section
/-! DEFINITION. The memory (20_memory.md R28 to R32): a list of (address, byte) cells in one canonical form, its reads and
writes without the bounds check (Machine/Ops.lean adds it), and the font table (R33). -/

namespace Sys2Proof.Machine

/-- Memory as cells; an address with no cell reads 0, its value at reset (10_state.md R24). -/
abbrev Memory := List Host.Cell

/-- The byte at an address. -/
def memGet : Memory → Nat → Byte
  | [], _ => 0
  | (a', b) :: rest, a => if a' = a then b else memGet rest a

/-- The cells without those at address `a`. -/
def memErase : Memory → Nat → Memory
  | [], _ => []
  | (a', b) :: rest, a => if a' = a then memErase rest a else (a', b) :: memErase rest a

/-- The cells with one more, before the first cell of a higher address. -/
def memInsert : Memory → Nat → Byte → Memory
  | [], a, v => [(a, v)]
  | (a', b) :: rest, a, v => if a < a' then (a, v) :: (a', b) :: rest else (a', b) :: memInsert rest a v

/-- Write one byte, keeping the canonical form: a zero byte has no cell. -/
def memPut (m : Memory) (a : Nat) (v : Byte) : Memory :=
  if v = 0 then memErase m a else memInsert (memErase m a) a v

/-- The cells are strictly rising from address `lo` up, inside the memory, and none holds 0. -/
def cellsWf (lo : Nat) : Memory → Bool
  | [] => true
  | (a, b) :: rest => decide (lo ≤ a) && decide (a < Config.memSize) && decide (b ≠ 0) && cellsWf (a + 1) rest

/-- The canonical form: addresses strictly rising and below 4096, no cell equal to what an unlisted address reads as. -/
def Memory.wf (m : Memory) : Bool := cellsWf 0 m

/-- The 80 font bytes, glyph after glyph, row after row from the top (20_memory.md R33, decision D14). -/
def fontBytes : List Byte :=
  [0xF0, 0x90, 0x90, 0x90, 0xF0,  0x20, 0x60, 0x20, 0x20, 0x70,  0xF0, 0x10, 0xF0, 0x80, 0xF0,  0xF0, 0x10, 0xF0, 0x10, 0xF0] ++
  [0x90, 0x90, 0xF0, 0x10, 0x10,  0xF0, 0x80, 0xF0, 0x10, 0xF0,  0xF0, 0x80, 0xF0, 0x90, 0xF0,  0xF0, 0x10, 0x20, 0x40, 0x40] ++
  [0xF0, 0x90, 0xF0, 0x90, 0xF0,  0xF0, 0x90, 0xF0, 0x10, 0xF0,  0xF0, 0x90, 0xF0, 0x90, 0x90,  0xE0, 0x90, 0xE0, 0x90, 0xE0] ++
  [0xF0, 0x80, 0x80, 0x80, 0xF0,  0xE0, 0x90, 0x90, 0x90, 0xE0,  0xF0, 0x80, 0xF0, 0x80, 0xF0,  0xF0, 0x80, 0xF0, 0x80, 0x80]

/-- Consecutive bytes from address `a` as cells, a zero byte giving none. -/
def cellsFrom : Nat → List Byte → Memory
  | _, [] => []
  | a, b :: bs => if b = 0 then cellsFrom (a + 1) bs else (a, b) :: cellsFrom (a + 1) bs

/-- Memory after reset: the font at FONT_BASE if it is preloaded, 0 everywhere else (10_state.md R24). -/
def resetMemory (preloadFont : Bool) : Memory :=
  if preloadFont then cellsFrom Config.fontBase fontBytes else []

end Sys2Proof.Machine
end

