-- ==== Sys2Proof/Machine/State.lean ====
section
/-! DEFINITION. The machine's whole state (10_state.md), its faults (60_exceptions.md R104) and its state after reset
(70_reset_and_hazards.md R122). -/

namespace Sys2Proof.Machine

/-- The four faults a tick can return (60_exceptions.md R104). The spec's faults do not stop the machine: they end the tick, the
state stays as the tick left it, and the next tick runs (R105, R110). So every one is raised by `raiseFault`, which answers a NEXT state
with the fault on the result port, and `step` never answers `Host.Outcome.fault`. Safe: nothing of the tick's effect is lost. Log entry 1. -/
inductive Fault where
  /-- An access at an address ≥ 4096, which it carries: raised by the fetch, `DRW`, `LD B, Vx`, `LD [I], Vx` and `LD Vx, [I]`. Safe. -/
  | memoryFault (address : Nat)
  /-- A push with all 16 slots occupied: raised by `CALL`. Safe. -/
  | stackOverflow
  /-- A pop with no slot occupied: raised by `RET`. Safe. -/
  | stackUnderflow
  /-- "no instruction matches the bit pattern"; carries the opcode: raised by decoding. Safe. -/
  | decodeFault (opcode : Opcode)
  deriving DecidableEq, Repr

/-- Why the model gives an instruction no meaning. No instruction of this model is refused. -/
inductive Refusal where
  /-- An instruction with no meaning yet, by its mnemonic: raised by no arm of `exec`. Safe. -/
  | notModelled (mnemonic : String)
  deriving DecidableEq, Repr

/-- What a tick returned: Ok, or the fault it raised (60_exceptions.md R103, R104). -/
inductive TickResult where
  | ok
  | fault (f : Fault)
  deriving DecidableEq, Repr

/-- The machine. The first ten fields are the state tuple of 10_state.md; the last two are the model's own. -/
structure State where
  /-- V0..VF; VF is also the flag (R12, R13). -/
  v : Vector Byte 16
  /-- The program counter (R15). -/
  pc : Addr
  /-- The index register I (R18). -/
  i : Addr
  /-- The call stack's slots S[0..15], S[0] the oldest (R20). -/
  stack : Vector Addr Config.stackCapacity
  /-- SP, how many slots are occupied, 0..16 (R20). -/
  sp : Fin (Config.stackCapacity + 1)
  /-- The delay timer (R21). -/
  dt : Byte
  /-- The sound timer (R21). -/
  st : Byte
  /-- The key latches (R22). -/
  keys : Vector Bool 16
  /-- The framebuffer, cell (cx, cy) at cx + 64·cy (R23). -/
  fb : Vector Bool 2048
  /-- The 4096 bytes of memory (R24). -/
  mem : Memory
  /-- What the most recent tick returned: the result port of 60_exceptions.md R104, the model's field. DESIGN CHOICE, safe, log entry 1. -/
  result : TickResult
  /-- How many random bytes RND has consumed, the model's field. DESIGN CHOICE, safe, log entry 2. -/
  draws : Nat
  deriving DecidableEq, Repr

/-- The reset command's state (R122; 10_state.md section 7), with PRELOAD_FONT as given. -/
def State.resetWith (preloadFont : Bool) : State where
  v := Vector.replicate 16 0
  pc := BitVec.ofNat 16 Config.origin
  i := 0
  stack := Vector.replicate Config.stackCapacity 0
  sp := 0
  dt := 0
  st := 0
  keys := Vector.replicate 16 false
  fb := Vector.replicate 2048 false
  mem := resetMemory preloadFont
  result := .ok
  draws := 0

/-- The state right after reset: construction is a reset with the font preloaded (R123). -/
def State.reset : State := State.resetWith true

end Sys2Proof.Machine
end

