-- ==== Sys2Proof/Machine/Operands.lean ====
section
/-! DEFINITION. The operand forms (30_encoding.md R47, 20_memory.md R29): immediates extended, key numbers and glyph addresses from a
low nibble, register blocks, decimal digits, and framebuffer indices. -/

namespace Sys2Proof.Machine

/-- `zext_16(nnn)`: an address immediate as an Address (30_encoding.md R47). -/
def zextAddr (nnn : Imm12) : Addr := nnn.setWidth 16

/-- A Byte as an Address, unchanged in value (00_scope.md R7). -/
def zextByte (b : Byte) : Addr := b.setWidth 16

/-- The low nibble of a byte, `b & 0xF`, as an index (44_keypad.md R89, 46_index_memory.md R99). -/
def lowNibble (b : Byte) : Fin 16 := (b.extractLsb' 0 4).toFin

/-- The index of VF. -/
abbrev vf : RegIdx := 15

/-- V0..VF in ascending order. -/
def allRegs : List RegIdx := [0, 1, 2, 3, 4, 5, 6, 7, 8, 9, 10, 11, 12, 13, 14, 15]

/-- V0..Vx in ascending order, the register block of 46_index_memory.md R101 and R102. -/
def regsUpTo (x : RegIdx) : List RegIdx := allRegs.take (x.val + 1)

/-- The address of the font glyph for a byte's low nibble, `FONT_BASE + 5 · (b & 0xF)` (46_index_memory.md R99). -/
def glyphAddr (b : Byte) : Addr := BitVec.ofNat 16 (Config.fontBase + Config.glyphBytes * (lowNibble b).val)

/-- The decimal digits of a byte: hundreds, tens, units (46_index_memory.md R100). -/
def decimalDigits (b : Byte) : List Byte :=
  [BitVec.ofNat 8 (b.toNat / 100), BitVec.ofNat 8 (b.toNat / 10 % 10), BitVec.ofNat 8 (b.toNat % 10)]

/-- The framebuffer index of cell (cx, cy), both wrapped (45_display.md R92). -/
def cellIndex (cx cy : Nat) : Fin 2048 :=
  ⟨cx % Config.columns + Config.columns * (cy % Config.rows), by simp only [Config.columns, Config.rows]; omega⟩

/-- Whether column `c` (0 the leftmost) of a sprite row is set: bit `7 - c` (45_display.md R96, "most-significant bit first"). -/
def spriteBit (b : Byte) (c : Nat) : Bool := b.getLsbD (7 - c)

end Sys2Proof.Machine
end

