-- ==== Sys2Proof/Machine/Flags.lean ====
section
/-! DEFINITION. The arithmetic laws and every flag computation (41_load_alu.md R56): each answers the stored byte and the flag. -/

namespace Sys2Proof.Machine

/-- A flag as the byte VF receives, 1 or 0 (10_state.md R17). -/
def flagByte (f : Bool) : Byte := if f then 1 else 0

/-- Add: the sum modulo 256, and the carry, `a + b > 255` (R56, R64). -/
def addWithCarry (a b : Byte) : Byte × Bool :=
  (BitVec.ofNat 8 ((a.toNat + b.toNat) % 256), decide (a.toNat + b.toNat > 255))

/-- Subtract: the difference modulo 256, and "no-borrow", `a ≥ b` (R56, R65). -/
def subNoBorrow (a b : Byte) : Byte × Bool :=
  (BitVec.ofNat 8 ((a.toNat + 256 - b.toNat) % 256), decide (a.toNat ≥ b.toNat))

/-- Shift right by one with zero fill, and the bit shifted out (R56, R67). -/
def shiftRightOne (a : Byte) : Byte × Bool := (a >>> 1, a.getLsbD 0)

/-- Shift left by one with zero fill, and the bit shifted out (R56, R68). -/
def shiftLeftOne (a : Byte) : Byte × Bool := (a <<< 1, a.getLsbD 7)

end Sys2Proof.Machine
end

