-- ==== Sys2Proof/Machine/Ops.lean ====
section
/-! DEFINITION. The named operations over registers, PC, stack, memory, timers, keys and framebuffer, and how a tick ends: Ok or a
fault. Every meaning is written over these. -/

namespace Sys2Proof.Machine

/-- `V[r]` (00_scope.md R8). -/
def State.getV (s : State) (r : RegIdx) : Byte := s.v[r.val]

/-- `V[r] <- b` (R8). -/
def State.setV (s : State) (r : RegIdx) (b : Byte) : State := { s with v := s.v.set r.val b }

/-- `VF <- f`, as a flag (10_state.md R13). -/
def State.setFlag (s : State) (f : Bool) : State := s.setV vf (flagByte f)

/-- Write a result and then its flag to VF: "the flag is written to VF last" (decision D5). -/
def State.setWithFlag (s : State) (x : RegIdx) (r : Byte × Bool) : State := (s.setV x r.1).setFlag r.2

/-- `Advance()`: PC plus 2, modulo 65536 (30_encoding.md R53). -/
def State.advance (s : State) : State := { s with pc := s.pc + 2 }

/-- A skip: one more `Advance()` when the condition holds (42_control_flow.md R70). -/
def State.skipIf (s : State) (c : Bool) : State := if c then s.advance else s

/-- PC less 2, modulo 65536: "undo fetch's advance" (44_keypad.md R91). -/
def State.rewind (s : State) : State := { s with pc := s.pc - 2 }

/-- The tick completes: the state with Ok on the result port (60_exceptions.md R104, code 0). -/
def complete (s : State) : Host.Outcome State Fault Refusal := .next { s with result := .ok }

/-- RAISING A FAULT, the one shared operation (00_scope.md R9; 60_exceptions.md R105, R109): the tick ends with the fault as its result
and the state as it stands; nothing is saved, no mode changes, control goes nowhere. There is no return operation beside it: the
hardware has no return-from-trap (R110), and the next tick executes from PC as it stands. -/
def raiseFault (f : Fault) (s : State) : Host.Outcome State Fault Refusal := .next { s with result := .fault f }

/-- End a tick from a state and perhaps a fault raised on the way to it. -/
def finish : State × Option Fault → Host.Outcome State Fault Refusal
  | (s, none) => complete s
  | (s, some f) => raiseFault f s

/-- The status code of a tick's result on the result port (60_exceptions.md R104, decision D16). -/
def TickResult.code : TickResult → Nat
  | .ok => 0
  | .fault (.memoryFault _) => 1
  | .fault .stackOverflow => 2
  | .fault .stackUnderflow => 3
  | .fault (.decodeFault _) => 4

/-- `MemRead(a, 1)` (20_memory.md R30). -/
def memRead (s : State) (a : Nat) : Except Fault Byte :=
  if a ≥ Config.memSize then .error (.memoryFault a) else .ok (memGet s.mem a)

/-- `MemWrite(a, 1, v)` (20_memory.md R31). -/
def memWrite (s : State) (a : Nat) (v : Byte) : Except Fault State :=
  if a ≥ Config.memSize then .error (.memoryFault a) else .ok { s with mem := memPut s.mem a v }

/-- Write bytes to ascending addresses from `a`; the writes before a fault stay (20_memory.md R38, R39). -/
def storeBytes : State → Nat → List Byte → State × Option Fault
  | s, _, [] => (s, none)
  | s, a, b :: bs =>
    match memWrite s a b with
    | .error f => (s, some f)
    | .ok s' => storeBytes s' (a + 1) bs

/-- Read ascending addresses from `a` into registers; the loads before a fault stay (R38, R39). -/
def loadBytes : State → Nat → List RegIdx → State × Option Fault
  | s, _, [] => (s, none)
  | s, a, r :: rs =>
    match memRead s a with
    | .error f => (s, some f)
    | .ok b => loadBytes (s.setV r b) (a + 1) rs

/-- The fetch of the opcode at PC, high byte first, from natural-number addresses; it writes no state (20_memory.md R45). -/
def fetch (s : State) : Except Fault Opcode :=
  match memRead s s.pc.toNat with
  | .error f => .error f
  | .ok hi =>
    match memRead s (s.pc.toNat + 1) with
    | .error f => .error f
    | .ok lo => .ok (opcodeOfBytes hi lo)

/-- The fault of a fetched word that does not decode (30_encoding.md R48). A fetch gives the decoder two bytes, so `truncated` does not
arise in a tick. -/
def decodeFaultOf (op : Opcode) : DecodeReject → Fault
  | .illegal w => .decodeFault w
  | .truncated => .decodeFault op

/-- `Push(a)` (42_control_flow.md R71). -/
def push (s : State) (a : Addr) : Except Fault State :=
  if h : s.sp.val < Config.stackCapacity then
    .ok { s with stack := s.stack.set s.sp.val a h, sp := ⟨s.sp.val + 1, Nat.succ_lt_succ h⟩ }
  else .error .stackOverflow

/-- `Pop()`: the popped address and the state; the slot keeps its value (42_control_flow.md R72, decision D24). -/
def pop (s : State) : Except Fault (Addr × State) :=
  if h : s.sp.val = 0 then .error .stackUnderflow
  else .ok (s.stack[s.sp.val - 1]'(by have := s.sp.isLt; omega), { s with sp := ⟨s.sp.val - 1, by have := s.sp.isLt; omega⟩ })

/-- `Decrease(t)`: "no-op at zero" (43_timers.md R82). -/
def decrease (t : Byte) : Byte := if t = 0 then 0 else t - 1

/-- Whether a key is pressed, `K[k]` (00_scope.md R8). -/
def State.keyDown (s : State) (k : Key) : Bool := s.keys[k.val]

/-- `GetPressed()`: the lowest pressed key, or none (44_keypad.md R88). -/
def getPressed (s : State) : Option Key := allRegs.find? fun k => s.keyDown k

/-- `Paint(cx, cy)`: toggle the cell; the answer's Bool is the cell's old value (45_display.md R93). -/
def paint (fb : Vector Bool 2048) (cx cy : Nat) : Vector Bool 2048 × Bool :=
  let c := cellIndex cx cy
  (fb.set c.val (!fb[c.val]), fb[c.val])

/-- `Clear()`: every cell false (45_display.md R94). -/
def clearScreen : Vector Bool 2048 := Vector.replicate 2048 false

/-- Paint the set bits of one sprite row among the given columns; `hit` turns true on a collision (45_display.md R96). -/
def paintRow (b : Byte) (xs cy : Nat) : List Nat → Vector Bool 2048 × Bool → Vector Bool 2048 × Bool
  | [], acc => acc
  | c :: cs, (fb, hit) =>
    if spriteBit b c then
      let p := paint fb (xs + c) cy
      paintRow b xs cy cs (p.1, hit || p.2)
    else paintRow b xs cy cs (fb, hit)

/-- The columns of a sprite row, left to right. -/
def spriteColumns : List Nat := [0, 1, 2, 3, 4, 5, 6, 7]

/-- Draw `n` sprite rows from address `a` at column `xs` and row `ys`, reading each row before painting it; the rows painted before a fault stay
(45_display.md R96, decision D11). The answer is the state and either the collision or the fault. -/
def drawRows (xs : Nat) : Nat → Nat → Nat → Bool → State → State × Except Fault Bool
  | 0, _, _, hit, s => (s, .ok hit)
  | n + 1, a, ys, hit, s =>
    match memRead s a with
    | .error f => (s, .error f)
    | .ok b =>
      let p := paintRow b xs ys spriteColumns (s.fb, hit)
      drawRows xs n (a + 1) (ys + 1) p.2 { s with fb := p.1 }

end Sys2Proof.Machine
end

