-- ==== Sys2Proof/Machine/ControlFlow.lean ====
section
/-! DEFINITION. Control transfer, skips and the call stack (42_control_flow.md). PC already holds the executing instruction's address
plus 2. -/

namespace Sys2Proof.Machine

/-- `SYS addr`: a no-op (R73, decision D3). -/
def execSys (_nnn : Imm12) (s : State) : Host.Outcome State Fault Refusal :=
  complete s

/-- `JP addr` (R74). -/
def execJp (nnn : Imm12) (s : State) : Host.Outcome State Fault Refusal :=
  complete { s with pc := zextAddr nnn }

/-- `CALL addr`: push PC, then jump; on StackOverflow nothing of the execute phase happens (R75). -/
def execCall (nnn : Imm12) (s : State) : Host.Outcome State Fault Refusal :=
  match push s s.pc with
  | .error f => raiseFault f s
  | .ok s' => complete { s' with pc := zextAddr nnn }

/-- `RET`: PC is the popped address, as is (R76). -/
def execRet (s : State) : Host.Outcome State Fault Refusal :=
  match pop s with
  | .error f => raiseFault f s
  | .ok (a, s') => complete { s' with pc := a }

/-- `JP V0, addr`: the sum is never masked or wrapped (R77, decision D8). -/
def execJpV0 (nnn : Imm12) (s : State) : Host.Outcome State Fault Refusal :=
  complete { s with pc := zextAddr nnn + zextByte (s.getV 0) }

/-- `SE Vx, byte` (R78). -/
def execSeByte (x : RegIdx) (kk : Byte) (s : State) : Host.Outcome State Fault Refusal :=
  complete (s.skipIf (s.getV x == kk))

/-- `SNE Vx, byte` (R79). -/
def execSneByte (x : RegIdx) (kk : Byte) (s : State) : Host.Outcome State Fault Refusal :=
  complete (s.skipIf (s.getV x != kk))

/-- `SE Vx, Vy` (R80). -/
def execSeReg (x y : RegIdx) (s : State) : Host.Outcome State Fault Refusal :=
  complete (s.skipIf (s.getV x == s.getV y))

/-- `SNE Vx, Vy` (R81). -/
def execSneReg (x y : RegIdx) (s : State) : Host.Outcome State Fault Refusal :=
  complete (s.skipIf (s.getV x != s.getV y))

end Sys2Proof.Machine
end

