-- ==== Sys2Proof/Machine/Display.lean ====
section
/-! DEFINITION. Clear screen and the sprite blit (45_display.md). -/

namespace Sys2Proof.Machine

/-- `CLS` (R95). -/
def execCls (s : State) : Host.Outcome State Fault Refusal :=
  complete { s with fb := clearScreen }

/-- `DRW Vx, Vy, nibble`: coordinates are read first, VF is the collision, written last and not at all on a fault (R96). -/
def execDrw (x y : RegIdx) (n : Nibble) (s : State) : Host.Outcome State Fault Refusal :=
  match drawRows (s.getV x).toNat n.toNat s.i.toNat (s.getV y).toNat false s with
  | (s', .ok hit) => complete (s'.setFlag hit)
  | (s', .error f) => raiseFault f s'

end Sys2Proof.Machine
end

