-- ==== Sys2Proof/Machine/IndexMemory.lean ====
section
/-! DEFINITION. The index register and the memory instructions (46_index_memory.md). None changes I as a side effect of an access. -/

namespace Sys2Proof.Machine

/-- `LD I, addr` (R97). -/
def execLdI (nnn : Imm12) (s : State) : Host.Outcome State Fault Refusal :=
  complete { s with i := zextAddr nnn }

/-- `ADD I, Vx`: modulo 65536, no flag (R98, decision D7). -/
def execAddI (x : RegIdx) (s : State) : Host.Outcome State Fault Refusal :=
  complete { s with i := s.i + zextByte (s.getV x) }

/-- `LD F, Vx` (R99). -/
def execLdF (x : RegIdx) (s : State) : Host.Outcome State Fault Refusal :=
  complete { s with i := glyphAddr (s.getV x) }

/-- `LD B, Vx`: three digits to I, I + 1, I + 2 (R100). -/
def execLdB (x : RegIdx) (s : State) : Host.Outcome State Fault Refusal :=
  finish (storeBytes s s.i.toNat (decimalDigits (s.getV x)))

/-- `LD [I], Vx`: V0..Vx to I upward (R101). -/
def execStoreRegs (x : RegIdx) (s : State) : Host.Outcome State Fault Refusal :=
  finish (storeBytes s s.i.toNat ((regsUpTo x).map s.getV))

/-- `LD Vx, [I]`: V0..Vx from I upward (R102). -/
def execLoadRegs (x : RegIdx) (s : State) : Host.Outcome State Fault Refusal :=
  finish (loadBytes s s.i.toNat (regsUpTo x))

end Sys2Proof.Machine
end

