-- ==== Sys2Proof/Machine/Keypad.lean ====
section
/-! DEFINITION. The key instructions (44_keypad.md). The latches change only by the host's `press` and `release`. -/

namespace Sys2Proof.Machine

/-- `SKP Vx`: the key is named by the low nibble of V[x] (R89, decision D12). -/
def execSkp (x : RegIdx) (s : State) : Host.Outcome State Fault Refusal :=
  complete (s.skipIf (s.keyDown (lowNibble (s.getV x))))

/-- `SKNP Vx` (R90). -/
def execSknp (x : RegIdx) (s : State) : Host.Outcome State Fault Refusal :=
  complete (s.skipIf (!s.keyDown (lowNibble (s.getV x))))

/-- `LD Vx, K`: the lowest pressed key, or PC back by 2 so that the next tick runs the instruction again (R91). -/
def execLdVxK (x : RegIdx) (s : State) : Host.Outcome State Fault Refusal :=
  match getPressed s with
  | none => complete s.rewind
  | some k => complete (s.setV x (BitVec.ofNat 8 k.val))

end Sys2Proof.Machine
end

