-- ==== Sys2Proof/Machine/LoadAlu.lean ====
section
/-! DEFINITION. Register loads and the ALU (41_load_alu.md): the meanings of LD, ADD, OR, AND, XOR, SUB, SUBN, SHR, SHL and RND on
general registers. They run in the execute phase, with PC already advanced (30_encoding.md R54). -/

namespace Sys2Proof.Machine

/-- `LD Vx, byte` (R58). -/
def execLdByte (x : RegIdx) (kk : Byte) (s : State) : Host.Outcome State Fault Refusal :=
  complete (s.setV x kk)

/-- `ADD Vx, byte`: no flag (R59, R57). -/
def execAddByte (x : RegIdx) (kk : Byte) (s : State) : Host.Outcome State Fault Refusal :=
  complete (s.setV x (addWithCarry (s.getV x) kk).1)

/-- `LD Vx, Vy` (R60). -/
def execLdReg (x y : RegIdx) (s : State) : Host.Outcome State Fault Refusal :=
  complete (s.setV x (s.getV y))

/-- `OR Vx, Vy` (R61). -/
def execOrReg (x y : RegIdx) (s : State) : Host.Outcome State Fault Refusal :=
  complete (s.setV x (s.getV x ||| s.getV y))

/-- `AND Vx, Vy` (R62). -/
def execAndReg (x y : RegIdx) (s : State) : Host.Outcome State Fault Refusal :=
  complete (s.setV x (s.getV x &&& s.getV y))

/-- `XOR Vx, Vy` (R63). -/
def execXorReg (x y : RegIdx) (s : State) : Host.Outcome State Fault Refusal :=
  complete (s.setV x (s.getV x ^^^ s.getV y))

/-- `ADD Vx, Vy`: VF is the carry, written last (R64). -/
def execAddReg (x y : RegIdx) (s : State) : Host.Outcome State Fault Refusal :=
  complete (s.setWithFlag x (addWithCarry (s.getV x) (s.getV y)))

/-- `SUB Vx, Vy`: VF is no-borrow, written last (R65). -/
def execSubReg (x y : RegIdx) (s : State) : Host.Outcome State Fault Refusal :=
  complete (s.setWithFlag x (subNoBorrow (s.getV x) (s.getV y)))

/-- `SUBN Vx, Vy`: the reverse difference; VF is no-borrow, written last (R66). -/
def execSubnReg (x y : RegIdx) (s : State) : Host.Outcome State Fault Refusal :=
  complete (s.setWithFlag x (subNoBorrow (s.getV y) (s.getV x)))

/-- `SHR Vx {, Vy}`: the y field is ignored; VF is the bit shifted out, written last (R67). -/
def execShr (x _y : RegIdx) (s : State) : Host.Outcome State Fault Refusal :=
  complete (s.setWithFlag x (shiftRightOne (s.getV x)))

/-- `SHL Vx {, Vy}`: the y field is ignored; VF is the bit shifted out, written last (R68). -/
def execShl (x _y : RegIdx) (s : State) : Host.Outcome State Fault Refusal :=
  complete (s.setWithFlag x (shiftLeftOne (s.getV x)))

/-- `RND Vx, byte` for a given random byte `r` (R69). -/
def rndWith (r : Byte) (x : RegIdx) (kk : Byte) (s : State) : Host.Outcome State Fault Refusal :=
  complete (s.setV x (r &&& kk))

/-- `RND Vx, byte`: the random byte is the environment's next draw, any byte (R69, decision D13; log entry 2). -/
def execRnd (x : RegIdx) (kk : Byte) (s : State) : Host.Outcome State Fault Refusal :=
  rndWith (Config.randomByte s.draws) x kk { s with draws := s.draws + 1 }

end Sys2Proof.Machine
end

