-- ==== Sys2Proof/Machine/Timers.lean ====
section
/-! DEFINITION. The timer instructions (43_timers.md). Counting down is the host's `frame_tick` (Machine/HostPort.lean). -/

namespace Sys2Proof.Machine

/-- `LD Vx, DT` (R83). -/
def execLdVxDt (x : RegIdx) (s : State) : Host.Outcome State Fault Refusal :=
  complete (s.setV x s.dt)

/-- `LD DT, Vx` (R84). -/
def execLdDtVx (x : RegIdx) (s : State) : Host.Outcome State Fault Refusal :=
  complete { s with dt := s.getV x }

/-- `LD ST, Vx` (R85). -/
def execLdStVx (x : RegIdx) (s : State) : Host.Outcome State Fault Refusal :=
  complete { s with st := s.getV x }

end Sys2Proof.Machine
end

