-- ==== Sys2Proof/Machine/Step.lean ====
section
/-! DEFINITION. `step`, the host command `tick` (30_encoding.md R54), and the placing of one instruction where the next tick
fetches it. -/

namespace Sys2Proof.Machine

/-- One tick: fetch, advance PC, decode, execute (R54). On a fetch fault nothing but the result changes; on a decode fault PC stays
advanced. -/
def step (s : State) : Host.Outcome State Fault Refusal :=
  match fetch s with
  | .error f => raiseFault f s
  | .ok op =>
    match decode op with
    | .error r => raiseFault (decodeFaultOf op r) s.advance
    | .ok i => exec i s.advance

/-- `s` with the instruction whose bits are `w` (numbered as spec/opcode_table.json numbers them, the bits at and above `nbits` 0) stored at
PC, high byte first. Where no whole instruction fits in memory at PC, PC is first set to ORIGIN. -/
def State.withFetchWord (s : State) (nbits w : Nat) : State :=
  let op := tableOpcode nbits w
  let at' : Addr := if s.pc.toNat + 1 < Config.memSize then s.pc else BitVec.ofNat 16 Config.origin
  { s with
    pc := at'
    mem := memPut (memPut s.mem at'.toNat (op.extractLsb' 8 8)) (at'.toNat + 1) (op.extractLsb' 0 8) }

end Sys2Proof.Machine
end

