-- ==== Sys2Proof/Machine/HostPort.lean ====
section
/-! DEFINITION. The host interface (60_exceptions.md R103): the commands beside `tick`, what each returns, and the outputs. `step` is
one tick; a run of the block is a list of commands in the host's order (R40, 70_reset_and_hazards.md R124). -/

namespace Sys2Proof.Machine

/-- The host's commands (R103). A tick's random byte is not an argument: it is the free value RND draws (log entry 2). -/
inductive HostCommand where
  /-- `reset(PRELOAD_FONT)` (70_reset_and_hazards.md R122). -/
  | reset (preloadFont : Bool)
  /-- `load(bytes)` (20_memory.md R35). -/
  | load (program : List Byte)
  /-- `tick` (30_encoding.md R54). -/
  | tick
  /-- `frame_tick` (60_exceptions.md R113). -/
  | frameTick
  /-- `press(k)` (44_keypad.md R87). -/
  | press (k : Key)
  /-- `release(k)` (R87). -/
  | release (k : Key)
  deriving DecidableEq, Repr

/-- What a command returns (R103, R104, decision D16). -/
inductive CommandResult where
  /-- The commands that return nothing: `reset`, `frame_tick`, `press`, `release`. -/
  | none
  /-- `Ok`, from `tick` or `load`. -/
  | ok
  /-- The fault a tick raised. -/
  | fault (f : Fault)
  /-- An oversize load, refused as a whole (20_memory.md R35). -/
  | loadRefused
  deriving DecidableEq, Repr

/-- `reset`: the whole state is discarded and rebuilt (R122). The count of draws is not the block's and goes on (log entry 2). -/
def hostReset (preloadFont : Bool) (s : State) : State :=
  { State.resetWith preloadFont with draws := s.draws }

/-- Bytes put at ascending addresses from `a`. -/
def putBytes : Memory → Nat → List Byte → Memory
  | m, _, [] => m
  | m, a, b :: bs => putBytes (memPut m a b) (a + 1) bs

/-- `load`: at most MAX_PROGRAM bytes, copied to ORIGIN upward; more are refused and nothing changes (20_memory.md R35). -/
def hostLoad (program : List Byte) (s : State) : State × CommandResult :=
  if program.length ≤ Config.maxProgram then ({ s with mem := putBytes s.mem Config.origin program }, .ok)
  else (s, .loadRefused)

/-- `frame_tick`: `Decrease(DT); Decrease(ST)` (60_exceptions.md R113). -/
def hostFrameTick (s : State) : State := { s with dt := decrease s.dt, st := decrease s.st }

/-- `press` and `release`: set one latch (44_keypad.md R87). -/
def hostSetKey (k : Key) (down : Bool) (s : State) : State := { s with keys := s.keys.set k.val down }

/-- A tick's result as the command's. -/
def commandResultOf : TickResult → CommandResult
  | .ok => .ok
  | .fault f => .fault f

/-- One host command: the state after it and what it returns (R103). -/
def command (c : HostCommand) (s : State) : Host.Outcome (State × CommandResult) Fault Refusal :=
  match c with
  | .reset preloadFont => .next (hostReset preloadFont s, .none)
  | .load program => .next (hostLoad program s)
  | .tick =>
    match step s with
    | .next s' => .next (s', commandResultOf s'.result)
    | .fault f => .fault f
    | .refused r => .refused r
  | .frameTick => .next (hostFrameTick s, .none)
  | .press k => .next (hostSetKey k true s, .none)
  | .release k => .next (hostSetKey k false s, .none)

/-- The host's commands in its order, each run to completion before the next (20_memory.md R40). -/
def runCommands : List HostCommand → State → Host.Outcome State Fault Refusal
  | [], s => .next s
  | c :: cs, s =>
    match command c s with
    | .next (s', _) => runCommands cs s'
    | .fault f => .fault f
    | .refused r => .refused r

/-- The sound output, "a boolean derived from 'sound timer nonzero'" (R117, 10_state.md R25). -/
def State.sound (s : State) : Bool := s.st != 0

/-- The framebuffer read port: the cell of column `cx` and row `cy` (R116). -/
def State.pixel (s : State) (cx : Fin 64) (cy : Fin 32) : Bool := s.fb[cx.val + 64 * cy.val]'(by omega)

end Sys2Proof.Machine
end

