-- ==== Sys2Proof/Safety.lean ====
section
/-! DEFINITION. The terms in which claims speak of runs: the invariant of reachable states, a program that has ended, and a tick
that raised no fault. -/

namespace Sys2Proof.Machine

/-- What every reachable state meets: the memory is in canonical form, PC is at most 0x10FE (the highest target of `JP V0`, 42_control_flow.md
R77), and every stack slot is at most 0x1000 (a return address follows a CALL inside memory, R75). -/
abbrev State.Inv (s : State) : Prop :=
  s.mem.wf = true ∧ s.pc.toNat ≤ 0x10FE ∧ ∀ j : Fin 16, (s.stack[j.val]).toNat ≤ 0x1000

/-- The last tick completed with Ok (60_exceptions.md R104). -/
abbrev State.TickOk (s : State) : Prop := s.result = .ok

/-- The program has ended: PC holds an address `a`, and the word at `a` is `JP a` (70_reset_and_hazards.md R126). -/
abbrev State.Ended (s : State) : Prop :=
  ∃ nnn : Imm12, fetch s = .ok (encode (.jp nnn)) ∧ s.pc = zextAddr nnn

/-- Some set bit of the `n`-row sprite at address `a`, drawn at column `xs` and row `ys`, reaches framebuffer index `c`: the declarative
reading of 45_display.md R96 and R92, bit 7 the leftmost column and both axes wrapped. -/
abbrev SpriteCovers (m : Memory) (a xs ys n c : Nat) : Prop :=
  ∃ r, r < n ∧ ∃ k, k < 8 ∧ (memGet m (a + r)).getLsbD (7 - k) = true ∧ (xs + k) % 64 + 64 * ((ys + r) % 32) = c

/-- From `s` to `t` the instruction completed with Ok, changed general registers only, and left in each register `r` the byte `f r`. -/
abbrev State.OnlyRegs (s t : State) (f : RegIdx → Byte) : Prop :=
  t = { s with v := t.v, result := .ok } ∧ ∀ r, t.getV r = f r

end Sys2Proof.Machine

namespace Sys2Proof

/-- The registers an instruction may change: its destination x, VF where it writes a flag, V0..Vx for `LD Vx, [I]` (10_state.md R12, R13). -/
def Instr.writesReg : Instr → RegIdx → Bool
  | .ldByte x _, r | .addByte x _, r | .ldReg x _, r | .orReg x _, r | .andReg x _, r | .xorReg x _, r | .rnd x _, r
  | .ldVxDt x, r | .ldVxK x, r => r == x
  | .addReg x _, r | .subReg x _, r | .subnReg x _, r | .shr x _, r | .shl x _, r => r == x || r == 15
  | .drw _ _ _, r => r == 15
  | .loadRegs x, r => decide (r ≤ x)
  | .sys _, _ | .cls, _ | .ret, _ | .jp _, _ | .call _, _ | .seByte _ _, _ | .sneByte _ _, _ | .seReg _ _, _ | .sneReg _ _, _
  | .ldI _, _ | .jpV0 _, _ | .skp _, _ | .sknp _, _ | .ldDtVx _, _ | .ldStVx _, _ | .addI _, _ | .ldF _, _ | .ldB _, _
  | .storeRegs _, _ => false

/-- How many bytes an instruction stores, at I upward (20_memory.md R38): 3 for `LD B, Vx`, x + 1 for `LD [I], Vx`, none for the others. -/
def Instr.bytesStored : Instr → Nat
  | .ldB _ => 3
  | .storeRegs x => x.val + 1
  | .sys _ | .cls | .ret | .jp _ | .call _ | .seByte _ _ | .sneByte _ _ | .seReg _ _ | .ldByte _ _ | .addByte _ _ | .ldReg _ _
  | .orReg _ _ | .andReg _ _ | .xorReg _ _ | .addReg _ _ | .subReg _ _ | .shr _ _ | .subnReg _ _ | .shl _ _ | .sneReg _ _
  | .ldI _ | .jpV0 _ | .rnd _ _ | .drw _ _ _ | .skp _ | .sknp _ | .ldVxDt _ | .ldVxK _ | .ldDtVx _ | .ldStVx _ | .addI _
  | .ldF _ | .loadRegs _ => 0

end Sys2Proof
end

