-- ==== Sys2Proof/Certificates/Slice0/Obligations.lean ====
section
/-! DEFINITION. The statements for the provers, from the numbered rules of spec/. `exec` is the execute phase: in its state PC is already
the executing instruction's address plus 2 (30_encoding.md R54). -/

open Sys2Proof Sys2Proof.Machine

/-! ## The tick -/

/-- R54: where two bytes at PC decode to an instruction, a tick is its execute phase on the state with PC advanced by 2. -/
def Obligations.StepRunsTheDecodedInstruction : Prop :=
  ∀ (s : State) (i : Instr), s.pc.toNat + 1 < 4096 →
    decode (opcodeOfBytes (memGet s.mem s.pc.toNat) (memGet s.mem (s.pc.toNat + 1))) = .ok i →
    i.wellFormed = true ∧ step s = exec i { s with pc := s.pc + 2 }

/-- R45: the high byte at PC is read first, and the first address outside memory is reported (which one: the spec's
decision D28). -/
def Obligations.FetchReadsBigEndianAtPc : Prop :=
  ∀ s : State,
    (4096 ≤ s.pc.toNat → fetch s = .error (.memoryFault s.pc.toNat)) ∧
    (s.pc.toNat = 4095 → fetch s = .error (.memoryFault 0x1000)) ∧
    (s.pc.toNat + 1 < 4096 → ∃ op, fetch s = .ok op ∧
      op.toNat = (memGet s.mem s.pc.toNat).toNat * 256 + (memGet s.mem (s.pc.toNat + 1)).toNat)

/-- R54, R106 (derived in the spec from R54 and R105): a fetch fault changes nothing (but what the tick returns); a word that does not
decode leaves PC advanced by 2. -/
def Obligations.FaultsBeforeExecute : Prop :=
  (∀ (s : State) (f : Fault), fetch s = .error f → step s = .next { s with result := .fault f }) ∧
  (∀ (s : State) (op : Opcode), fetch s = .ok op → (∀ i, decode op ≠ .ok i) →
    step s = .next { s with pc := s.pc + 2, result := .fault (.decodeFault op) })

/-- R54: "it always returns to the host"; R103: no command blocks (the spec's decision D1). -/
def Obligations.EveryCommandSequenceCompletes : Prop :=
  (∀ s : State, ∃ t, step s = .next t) ∧ ∀ (cs : List HostCommand) (s : State), ∃ t, runCommands cs s = .next t

/-- R104, R107: what each fault a tick returns says about the state the tick began in; no other instruction can fault. The
bound on the address is the spec's decision D10. -/
def Obligations.EachFaultHasItsCause : Prop :=
  ∀ s t : State, step s = .next t →
    match t.result with
    | .ok => ∃ op i, fetch s = .ok op ∧ decode op = .ok i
    | .fault (.memoryFault a) =>
      4096 ≤ a ∧ a < 2 ^ 17 ∧
        (fetch s = .error (.memoryFault a) ∨
          ∃ op i x y n, fetch s = .ok op ∧ decode op = .ok i ∧
            (i = .drw x y n ∨ i = .ldB x ∨ i = .storeRegs x ∨ i = .loadRegs x))
    | .fault .stackOverflow => s.sp.val = 16 ∧ ∃ op nnn, fetch s = .ok op ∧ decode op = .ok (.call nnn)
    | .fault .stackUnderflow => s.sp.val = 0 ∧ ∃ op, fetch s = .ok op ∧ decode op = .ok .ret
    | .fault (.decodeFault op) => fetch s = .ok op ∧ ∀ i, decode op ≠ .ok i

/-- R106 (derived in the spec): PC and the other state after each fault. A fault of the execute phase may leave registers, cells and bytes of the tick's partial
effect; the statements about DRW, LD B, LD [I] and LD Vx, [I] say which (the spec's
decision D11). -/
def Obligations.StateAfterEachFault : Prop :=
  ∀ (s t : State) (f : Fault), step s = .next t → t.result = .fault f →
    (fetch s = .error f → t = { s with result := .fault f }) ∧
    ((∃ op, fetch s = .ok op) → t.pc = s.pc + 2) ∧
    ((∀ a, f ≠ .memoryFault a) → t = { s with pc := s.pc + 2, result := .fault f }) ∧
    ((∃ op, fetch s = .ok op) → t = { s with pc := s.pc + 2, v := t.v, fb := t.fb, mem := t.mem, result := .fault f })

/-- R110: no fault latch (the spec's decision D29). What the previous tick returned has no effect on the next one. (The field `result` is the model's
choice: log entry 1.) -/
def Obligations.ResultPortIsNeverRead : Prop :=
  ∀ (s : State) (r : TickResult), step { s with result := r } = step s

/-- R83: no instruction reads ST. Two states that differ in ST only take ticks that differ in ST only. That no
instruction reads ST is, by the header of 43_timers.md, from general knowledge. -/
def Obligations.SoundTimerIsNeverRead : Prop :=
  ∀ (s t : State) (b : Byte), step s = .next t →
    ∃ t', step { s with st := b } = .next t' ∧ t = { t' with st := t.st }

/-! ## Encoding -/

/-- R48, R49: every well-formed instruction's word decodes to it, with every operand. The opcode values are the spec's decision D2; that `shr`
and `shl` keep the y field is the model's choice, log entry 4. -/
def Obligations.DecodeOfEncodeIsTheInstruction : Prop :=
  ∀ i : Instr, i.wellFormed = true → decode (encode i) = .ok i

/-- R48, R49: a word that decodes is the word of the instruction it decodes to, so no bit of it is dropped and no other instruction has it.
The opcode values are the spec's decision D2; that `shr` and `shl` keep the y field is the model's choice, log entry 4. -/
def Obligations.EncodeOfDecodeIsTheWord : Prop :=
  ∀ (op : Opcode) (i : Instr), decode op = .ok i → i.wellFormed = true ∧ encode i = op

/-- R50: the illegal words are exactly these (the spec's decision D4), and each is rejected with the word itself. -/
def Obligations.IllegalWordsAreExactlyThese : Prop :=
  ∀ op : Opcode,
    let o := op.toNat / 4096
    let n := op.toNat % 16
    let kk := op.toNat % 256
    let illegal := ((o = 5 ∨ o = 9) ∧ n ≠ 0) ∨ (o = 8 ∧ n ∈ [8, 9, 0xA, 0xB, 0xC, 0xD, 0xF]) ∨ (o = 14 ∧ kk ∉ [0x9E, 0xA1]) ∨
      (o = 15 ∧ kk ∉ [0x07, 0x0A, 0x15, 0x18, 0x1E, 0x29, 0x33, 0x55, 0x65])
    (illegal → decode op = .error (.illegal op)) ∧ (¬ illegal → ∃ i, decode op = .ok i)

/-- R49 and the vectors of 95_test_vectors.md section 2.1: words written out from the opcode map, one per family. The
opcode values are the spec's decision D2. -/
def Obligations.WordsOfTheOpcodeMapDecode : Prop :=
  decode 0x00E0#16 = .ok .cls ∧ decode 0x00EE#16 = .ok .ret ∧ decode 0x00E1#16 = .ok (.sys 0x0E1) ∧ decode 0x2FFF#16 = .ok (.call 0xFFF) ∧
  decode 0x5120#16 = .ok (.seReg 1 2) ∧ decode 0x6102#16 = .ok (.ldByte 1 0x02) ∧ decode 0x800E#16 = .ok (.shl 0 0) ∧
  decode 0xD125#16 = .ok (.drw 1 2 5) ∧ decode 0xE19E#16 = .ok (.skp 1) ∧ decode 0xF307#16 = .ok (.ldVxDt 3) ∧
  decode 0xFF65#16 = .ok (.loadRegs 15) ∧ decode 0x8008#16 = .error (.illegal 0x8008#16)

/-- R36, R45, R54: an instruction's word stored big-endian at PC is what the next tick runs. -/
def Obligations.PlacedInstructionRuns : Prop :=
  ∀ (s : State) (i : Instr), i.wellFormed = true → s.pc.toNat + 1 < 4096 →
    step (s.withFetchWord 16 (encode i).toNat) =
      exec i { s with
        pc := s.pc + 2
        mem := memPut (memPut s.mem s.pc.toNat (BitVec.ofNat 8 ((encode i).toNat / 256))) (s.pc.toNat + 1)
          (BitVec.ofNat 8 ((encode i).toNat % 256)) }

/-! ## Memory -/

/-- R30, R31: reads and writes inside and outside memory; a write changes only the one cell. That a write is checked as a read is derived in
the spec. -/
def Obligations.ReadAfterWrite : Prop :=
  ∀ (s : State) (a : Nat) (v : Byte),
    (4096 ≤ a → memRead s a = .error (.memoryFault a) ∧ memWrite s a v = .error (.memoryFault a)) ∧
    (a < 4096 → ∃ t, memWrite s a v = .ok t ∧ t = { s with mem := t.mem } ∧ memRead t a = .ok v ∧
      ∀ b, b ≠ a → memRead t b = memRead s b)

/-- R43 (derived in the spec), R36: a fetch sees the bytes stored before it, high byte at the lower address. -/
def Obligations.FetchSeesEarlierStores : Prop :=
  ∀ (s t u : State) (hi lo : Byte), memWrite s s.pc.toNat hi = .ok t → memWrite t (s.pc.toNat + 1) lo = .ok u →
    fetch u = .ok (opcodeOfBytes hi lo)

/-! ## Invariants and reset -/

/-- Every tick keeps the memory in canonical form (the model's choice, log entry 5), PC at most 0x10FE (R77, the spec's decisions D8 and D9) and every return
address at most 0x1000 (R75). -/
def Obligations.TickKeepsTheInvariant : Prop :=
  ∀ s t : State, s.Inv → step s = .next t → t.Inv

/-- R122: the state after reset meets the invariant, whether or not the font is preloaded (PRELOAD_FONT: the spec's decision D18). The
canonical form of memory is the model's choice, log entry 5; the stack slots' zeros are the spec's decision D24. -/
def Obligations.ResetMeetsTheInvariant : Prop :=
  ∀ b : Bool, (State.resetWith b).Inv

/-- Every host command keeps the invariant, so every state the host can reach meets it. As in `TickKeepsTheInvariant`, the bound on PC rests
on R77 with the spec's decisions D8 and D9, the bound on return addresses on R75, and the canonical form of memory is the model's choice,
log entry 5; that the slots are 0 at reset is the spec's decision D24. -/
def Obligations.HostCommandsKeepTheInvariant : Prop :=
  (∀ (c : HostCommand) (s t : State) (r : CommandResult), s.Inv → command c s = .next (t, r) → t.Inv) ∧
  ∀ (cs : List HostCommand) (t : State), runCommands cs State.reset = .next t → t.Inv

/-- R122: the reset command gives every piece of the block's state its reset value, whatever it was before; R123: construction is a
reset with the font. The font's bytes, PRELOAD_FONT and the slots' zeros are the spec's decisions D14, D18 and D24. (The model's own two
fields are not in the first clause: log entries 1 and 2.) -/
def Obligations.ResetValues : Prop :=
  (∀ (b : Bool) (s : State), ∃ t, command (.reset b) s = .next (t, .none) ∧ (∀ r, t.getV r = 0) ∧ t.pc.toNat = 0x200 ∧ t.i = 0 ∧
    t.sp.val = 0 ∧ (∀ j : Fin 16, t.stack[j.val] = 0) ∧ t.dt = 0 ∧ t.st = 0 ∧ (∀ k, t.keyDown k = false) ∧
    (∀ c (hc : c < 2048), t.fb[c] = false) ∧
    ∀ a, memGet t.mem a = if b = true ∧ a < 80 then fontBytes.getD a 0 else 0) ∧
  State.reset = State.resetWith true

/-- R33: the font's 16 glyphs, five bytes each, glyph d at 0x000 + 5·d. The bytes are the spec's decision D14. -/
def Obligations.FontGlyphsAfterReset : Prop :=
  ∀ (d : Fin 16) (k : Fin 5), memGet State.reset.mem (5 * d.val + k.val) =
    (([[0xF0, 0x90, 0x90, 0x90, 0xF0], [0x20, 0x60, 0x20, 0x20, 0x70], [0xF0, 0x10, 0xF0, 0x80, 0xF0], [0xF0, 0x10, 0xF0, 0x10, 0xF0],
       [0x90, 0x90, 0xF0, 0x10, 0x10], [0xF0, 0x80, 0xF0, 0x10, 0xF0], [0xF0, 0x80, 0xF0, 0x90, 0xF0], [0xF0, 0x10, 0x20, 0x40, 0x40],
       [0xF0, 0x90, 0xF0, 0x90, 0xF0], [0xF0, 0x90, 0xF0, 0x10, 0xF0], [0xF0, 0x90, 0xF0, 0x90, 0x90], [0xE0, 0x90, 0xE0, 0x90, 0xE0],
       [0xF0, 0x80, 0x80, 0x80, 0xF0], [0xE0, 0x90, 0x90, 0x90, 0xE0], [0xF0, 0x80, 0xF0, 0x80, 0xF0], [0xF0, 0x80, 0xF0, 0x80, 0x80]] :
      List (List Byte)).getD d.val []).getD k.val 0

/-- R125 (derived in the spec; SYS as a no-op is its decision D3): with no program loaded, tick after tick is a no-op up to 0x1000, where the
fetch faults. The Ok that these ticks leave in the field `result` is also that field's value at reset, the model's choice: log entry 1. -/
def Obligations.TicksWithoutAProgram : Prop :=
  (∀ k, k ≤ 1792 → runCommands (List.replicate k .tick) State.reset = .next { State.reset with pc := BitVec.ofNat 16 (0x200 + 2 * k) }) ∧
  runCommands (List.replicate 1793 .tick) State.reset =
    .next { State.reset with pc := 0x1000#16, result := .fault (.memoryFault 0x1000) }

/-- R126: a program that has ended (the definition is the spec's decision D26) stays so: a tick changes nothing and leaves PC where it is. -/
def Obligations.EndedProgramStaysEnded : Prop :=
  ∀ s : State, s.Ended → step s = .next { s with result := .ok }

/-! ## Host commands and outputs -/

/-- R35: a load of at most 3584 bytes copies them to 0x200 upward and changes nothing else; a longer one changes nothing (the
spec's decision D17). -/
def Obligations.LoadCopiesOrRefuses : Prop :=
  ∀ (p : List Byte) (s : State),
    (p.length ≤ 3584 → ∃ t, command (.load p) s = .next (t, .ok) ∧ t = { s with mem := t.mem } ∧
      (∀ j (hj : j < p.length), memGet t.mem (0x200 + j) = p[j]) ∧
      ∀ a, a < 0x200 ∨ 0x200 + p.length ≤ a → memGet t.mem a = memGet s.mem a) ∧
    (3584 < p.length → command (.load p) s = .next (s, .loadRefused))

/-- R113, R82: a frame tick counts each timer down by one, never below zero, and touches nothing else. -/
def Obligations.FrameTickCountsDown : Prop :=
  ∀ s : State, ∃ t, command .frameTick s = .next (t, .none) ∧ t = { s with dt := t.dt, st := t.st } ∧
    t.dt.toNat = s.dt.toNat - 1 ∧ t.st.toNat = s.st.toNat - 1

/-- R87: press and release set one latch and change nothing else. -/
def Obligations.PressAndReleaseSetOneLatch : Prop :=
  ∀ (k : Key) (s : State),
    (∃ t, command (.press k) s = .next (t, .none) ∧ t = { s with keys := t.keys } ∧
      ∀ j, t.keyDown j = if j = k then true else s.keyDown j) ∧
    ∃ t, command (.release k) s = .next (t, .none) ∧ t = { s with keys := t.keys } ∧
      ∀ j, t.keyDown j = if j = k then false else s.keyDown j

/-- R104: only a tick returns a fault, and the fault is the one on the result port (the field `result` is the model's choice: log
entry 1). -/
def Obligations.OnlyTickReturnsFaults : Prop :=
  ∀ (c : HostCommand) (s t : State) (f : Fault), command c s = .next (t, .fault f) → c = .tick ∧ step s = .next t ∧ t.result = .fault f

/-- R116, R117: the outputs are read from the state: cell (cx, cy) is FB[cx + 64·cy], and sound is ST ≠ 0. -/
def Obligations.OutputsAreDerived : Prop :=
  ∀ s : State, (s.sound = true ↔ s.st.toNat ≠ 0) ∧
    ∀ (cx : Fin 64) (cy : Fin 32) (c : Nat) (hc : c < 2048), c = cx.val + 64 * cy.val → s.pixel cx cy = s.fb[c]

/-! ## What each instruction leaves unchanged -/

/-- R12, R13: an instruction changes no register but its destination, VF where it writes a flag, and V0..Vx for LD Vx, [I]. -/
def Obligations.RegistersChangeOnlyAsDestinations : Prop :=
  ∀ (i : Instr) (s t : State) (r : RegIdx), exec i s = .next t → i.writesReg r = false → t.getV r = s.getV r

/-- R38, R31: an instruction changes no byte of memory but those it stores at I upward: three for LD B, x + 1 for LD [I], none for the others. -/
def Obligations.MemoryChangesOnlyWhereStored : Prop :=
  ∀ (i : Instr) (s t : State) (a : Nat), exec i s = .next t →
    (a < s.i.toNat ∨ s.i.toNat + i.bytesStored ≤ a ∨ 4096 ≤ a) → memGet t.mem a = memGet s.mem a

/-- R15: how the execute phase may change PC: a taken skip adds 2, LD Vx, K may take 2 back, JP, CALL, RET and JP V0 replace it,
and every other instruction leaves it. Modulo 65536 is the spec's decision D9. -/
def Obligations.PcChangesOnlyByControlTransfer : Prop :=
  ∀ (i : Instr) (s t : State), exec i s = .next t →
    match i with
    | .jp _ | .call _ | .ret | .jpV0 _ => True
    | .seByte _ _ | .sneByte _ _ | .seReg _ _ | .sneReg _ _ | .skp _ | .sknp _ => t.pc = s.pc ∨ t.pc = s.pc + 2
    | .ldVxK _ => t.pc = s.pc ∨ t.pc = s.pc - 2
    | _ => t.pc = s.pc

/-- R18, R20, R21, R22, R23: who writes each special register: I by LD I, ADD I, LD F; the stack by CALL and RET; DT by LD DT; ST by LD ST; the
framebuffer by CLS and DRW; the key latches by no instruction. A CALL changes no slot but S[SP], a RET none (the spec's
decision D24); that LD [I] and LD Vx, [I] leave I is its decision D6. -/
def Obligations.SpecialStateChangesOnlyByItsInstructions : Prop :=
  ∀ (i : Instr) (s t : State), exec i s = .next t →
    t.keys = s.keys ∧
    ((∀ nnn, i ≠ .ldI nnn) → (∀ x, i ≠ .addI x) → (∀ x, i ≠ .ldF x) → t.i = s.i) ∧
    ((∀ nnn, i ≠ .call nnn) → i ≠ .ret → t.sp = s.sp) ∧
    ((∀ nnn, i ≠ .call nnn) → t.stack = s.stack) ∧
    (∀ j : Fin 16, j.val ≠ s.sp.val → t.stack[j.val] = s.stack[j.val]) ∧
    ((∀ x, i ≠ .ldDtVx x) → t.dt = s.dt) ∧
    ((∀ x, i ≠ .ldStVx x) → t.st = s.st) ∧
    (i ≠ .cls → (∀ x y n, i ≠ .drw x y n) → t.fb = s.fb)

/-! ## Register loads and the ALU -/

/-- R58, R59, R60: load immediate, add immediate (no flag) and copy. -/
def Obligations.LoadsAndAddImmediate : Prop :=
  ∀ s : State,
    (∀ x kk, ∃ t, exec (.ldByte x kk) s = .next t ∧ s.OnlyRegs t fun r => if r = x then kk else s.getV r) ∧
    (∀ x kk, ∃ t, exec (.addByte x kk) s = .next t ∧
      s.OnlyRegs t fun r => if r = x then BitVec.ofNat 8 (((s.getV x).toNat + kk.toNat) % 256) else s.getV r) ∧
    ∀ x y, ∃ t, exec (.ldReg x y) s = .next t ∧ s.OnlyRegs t fun r => if r = x then s.getV y else s.getV r

/-- R61, R62, R63: bitwise or, and, exclusive or, bit by bit, with no flag. -/
def Obligations.BitwiseOperations : Prop :=
  ∀ (s : State) (x y : RegIdx),
    (∃ t, exec (.orReg x y) s = .next t ∧ s.OnlyRegs t fun r => if r = x then s.getV x ||| s.getV y else s.getV r) ∧
    (∃ t, exec (.andReg x y) s = .next t ∧ s.OnlyRegs t fun r => if r = x then s.getV x &&& s.getV y else s.getV r) ∧
    ∃ t, exec (.xorReg x y) s = .next t ∧ s.OnlyRegs t fun r => if r = x then s.getV x ^^^ s.getV y else s.getV r

/-- R64: the sum modulo 256, and VF the carry, written last, so that with x = F it holds the flag (the spec's decision D5). -/
def Obligations.AddSetsCarry : Prop :=
  ∀ (s : State) (x y : RegIdx), ∃ t, exec (.addReg x y) s = .next t ∧ s.OnlyRegs t fun r =>
    if r = 15 then (if (s.getV x).toNat + (s.getV y).toNat > 255 then 1 else 0)
    else if r = x then BitVec.ofNat 8 (((s.getV x).toNat + (s.getV y).toNat) % 256) else s.getV r

/-- R65, R66: the two differences modulo 256, and VF the no-borrow flag, written last (for x = F the spec's decision D5). -/
def Obligations.SubtractSetsNoBorrow : Prop :=
  ∀ (s : State) (x y : RegIdx),
    (∃ t, exec (.subReg x y) s = .next t ∧ s.OnlyRegs t fun r =>
      if r = 15 then (if (s.getV x).toNat ≥ (s.getV y).toNat then 1 else 0)
      else if r = x then BitVec.ofNat 8 (((s.getV x).toNat + 256 - (s.getV y).toNat) % 256) else s.getV r) ∧
    ∃ t, exec (.subnReg x y) s = .next t ∧ s.OnlyRegs t fun r =>
      if r = 15 then (if (s.getV y).toNat ≥ (s.getV x).toNat then 1 else 0)
      else if r = x then BitVec.ofNat 8 (((s.getV y).toNat + 256 - (s.getV x).toNat) % 256) else s.getV r

/-- R67, R68: the shifts by one with zero fill, whatever y is, and VF the bit shifted out, written last (for x = F the spec's decision
D5). -/
def Obligations.ShiftsSetTheBitShiftedOut : Prop :=
  ∀ (s : State) (x y : RegIdx),
    (∃ t, exec (.shr x y) s = .next t ∧ s.OnlyRegs t fun r =>
      if r = 15 then BitVec.ofNat 8 ((s.getV x).toNat % 2) else if r = x then BitVec.ofNat 8 ((s.getV x).toNat / 2) else s.getV r) ∧
    ∃ t, exec (.shl x y) s = .next t ∧ s.OnlyRegs t fun r =>
      if r = 15 then BitVec.ofNat 8 ((s.getV x).toNat / 128)
      else if r = x then BitVec.ofNat 8 ((s.getV x).toNat * 2 % 256) else s.getV r

/-- R69: the random byte under the mask. The byte is the free value `Config.randomByte` of the model's count of draws (the model's
choice, log entry 2; the spec's decision D13), so the statement holds for every byte; the count goes up by one. -/
def Obligations.RandomByteUnderMask : Prop :=
  ∀ (s : State) (x : RegIdx) (kk : Byte), ∃ t, exec (.rnd x kk) s = .next t ∧
    t = { s with v := t.v, draws := s.draws + 1, result := .ok } ∧
    ∀ r, t.getV r = if r = x then Config.randomByte s.draws &&& kk else s.getV r

/-! ## Control transfer, skips and the call stack -/

/-- R73, R74, R77: SYS does nothing, JP goes to nnn, JP V0 to nnn + V0 without wrap. SYS as a no-op is the spec's decision D3, the
unmasked sum D8. -/
def Obligations.JumpsAndSys : Prop :=
  ∀ (s : State) (nnn : Imm12),
    exec (.sys nnn) s = .next { s with result := .ok } ∧
    (∃ t, exec (.jp nnn) s = .next t ∧ t = { s with pc := t.pc, result := .ok } ∧ t.pc.toNat = nnn.toNat) ∧
    ∃ t, exec (.jpV0 nnn) s = .next t ∧ t = { s with pc := t.pc, result := .ok } ∧ t.pc.toNat = nnn.toNat + (s.getV 0).toNat

/-- R75, R71: CALL pushes PC and jumps; with 16 slots occupied (conflict C1) it raises StackOverflow and the execute phase changes
nothing. -/
def Obligations.CallPushesTheReturnAddress : Prop :=
  ∀ (s : State) (nnn : Imm12),
    (s.sp.val < 16 → ∃ t, exec (.call nnn) s = .next t ∧
      t = { s with pc := t.pc, sp := t.sp, stack := t.stack, result := .ok } ∧ t.pc.toNat = nnn.toNat ∧ t.sp.val = s.sp.val + 1 ∧
      ∀ j : Fin 16, t.stack[j.val] = if j.val = s.sp.val then s.pc else s.stack[j.val]) ∧
    (s.sp.val = 16 → exec (.call nnn) s = .next { s with result := .fault .stackOverflow })

/-- R76, R72: RET pops the newest address into PC, as is; with no slot occupied it raises StackUnderflow and changes
nothing. That the popped slot keeps its value is the spec's decision D24. -/
def Obligations.RetPopsTheReturnAddress : Prop :=
  ∀ s : State,
    (∀ j : Fin 16, s.sp.val = j.val + 1 → ∃ t, exec .ret s = .next t ∧ t = { s with pc := t.pc, sp := t.sp, result := .ok } ∧
      t.pc = s.stack[j.val] ∧ t.sp.val = j.val) ∧
    (s.sp.val = 0 → exec .ret s = .next { s with result := .fault .stackUnderflow })

/-- R75, R76, R71, R72 (vector W5 at execute level): a CALL that does not overflow, then a RET, restores PC and SP; the state
differs in the stack only. That RET leaves the slots as CALL left them is the spec's decision D24; which slot CALL writes is
`CallPushesTheReturnAddress`. -/
def Obligations.RetAfterCallRestoresPc : Prop :=
  ∀ (s : State) (nnn : Imm12), s.sp.val < 16 → ∃ t u, exec (.call nnn) s = .next t ∧ exec .ret t = .next u ∧
    u = { s with stack := t.stack, result := .ok }

/-- R78, R79, R80, R81, R53: a taken skip advances PC by 2 more, modulo 65536 (the spec's decision D9), and nothing else changes. -/
def Obligations.SkipsAdvancePc : Prop :=
  ∀ (s : State) (x y : RegIdx) (kk : Byte),
    exec (.seByte x kk) s = .next { s with pc := if s.getV x = kk then s.pc + 2 else s.pc, result := .ok } ∧
    exec (.sneByte x kk) s = .next { s with pc := if s.getV x = kk then s.pc else s.pc + 2, result := .ok } ∧
    exec (.seReg x y) s = .next { s with pc := if s.getV x = s.getV y then s.pc + 2 else s.pc, result := .ok } ∧
    exec (.sneReg x y) s = .next { s with pc := if s.getV x = s.getV y then s.pc else s.pc + 2, result := .ok }

/-! ## Timers and keys -/

/-- R83, R84, R85: reading DT, setting DT, setting ST; the sound output follows ST at once. The instructions' existence is,
by the header of 43_timers.md, from general knowledge. -/
def Obligations.TimerAccessors : Prop :=
  ∀ (s : State) (x : RegIdx),
    (∃ t, exec (.ldVxDt x) s = .next t ∧ s.OnlyRegs t fun r => if r = x then s.dt else s.getV r) ∧
    exec (.ldDtVx x) s = .next { s with dt := s.getV x, result := .ok } ∧
    ∃ t, exec (.ldStVx x) s = .next t ∧ t = { s with st := s.getV x, result := .ok } ∧ (t.sound = true ↔ (s.getV x).toNat ≠ 0)

/-- R89, R90: the key tested is the low four bits of V[x], the spec's decision D12; modulo 65536 is its decision D9. -/
def Obligations.KeySkipsTestTheLowNibble : Prop :=
  ∀ (s : State) (x : RegIdx) (k : Key), k.val = (s.getV x).toNat % 16 →
    exec (.skp x) s = .next { s with pc := if s.keyDown k = true then s.pc + 2 else s.pc, result := .ok } ∧
    exec (.sknp x) s = .next { s with pc := if s.keyDown k = true then s.pc else s.pc + 2, result := .ok }

/-- R91, R88: the lowest pressed key goes to V[x]; with none pressed only PC changes, back by 2 modulo 65536 (the modulus
is the spec's decision D9). -/
def Obligations.WaitForKeyTakesTheLowestKey : Prop :=
  ∀ (s : State) (x : RegIdx),
    (∀ k : Key, s.keyDown k = true → (∀ j : Key, j < k → s.keyDown j = false) →
      ∃ t, exec (.ldVxK x) s = .next t ∧ s.OnlyRegs t fun r => if r = x then BitVec.ofNat 8 k.val else s.getV r) ∧
    ((∀ k : Key, s.keyDown k = false) → ∃ t, exec (.ldVxK x) s = .next t ∧ t = { s with pc := t.pc, result := .ok } ∧
      t.pc.toNat = (s.pc.toNat + 65536 - 2) % 65536)

/-! ## Framebuffer -/

/-- R92, R93: Paint toggles the one cell at (cx mod 64) + 64·(cy mod 32), for any cx and cy, and answers its old value. -/
def Obligations.PaintTogglesOneCell : Prop :=
  ∀ (fb : Vector Bool 2048) (cx cy c : Nat) (hc : c < 2048),
    (c = cx % 64 + 64 * (cy % 32) → (paint fb cx cy).1[c] = (!fb[c]) ∧ (paint fb cx cy).2 = fb[c]) ∧
    (c ≠ cx % 64 + 64 * (cy % 32) → (paint fb cx cy).1[c] = fb[c])

/-- R95, R94: CLS turns every cell off and changes nothing else. -/
def Obligations.ClearScreenTurnsEveryCellOff : Prop :=
  ∀ s : State, ∃ t, exec .cls s = .next t ∧ t = { s with fb := t.fb, result := .ok } ∧ ∀ c (hc : c < 2048), t.fb[c] = false

/-- R96, R92, R93: with every row in memory, DRW toggles exactly the cells its set bits cover, wrapped on both axes, and VF is 1 if one of
them was lit, else 0. (Where a row is outside memory: `DrawFaultPaintsTheRowsBefore`.) -/
def Obligations.DrawTogglesTheCoveredCells : Prop :=
  ∀ (s : State) (x y : RegIdx) (n : Nibble), (n.toNat = 0 ∨ s.i.toNat + n.toNat ≤ 4096) →
    ∃ t, exec (.drw x y n) s = .next t ∧ t = { s with v := t.v, fb := t.fb, result := .ok } ∧
      (∀ c (hc : c < 2048),
        (SpriteCovers s.mem s.i.toNat (s.getV x).toNat (s.getV y).toNat n.toNat c → t.fb[c] = !s.fb[c]) ∧
        (¬ SpriteCovers s.mem s.i.toNat (s.getV x).toNat (s.getV y).toNat n.toNat c → t.fb[c] = s.fb[c])) ∧
      (∀ r, r ≠ 15 → t.getV r = s.getV r) ∧
      ((∃ c, ∃ hc : c < 2048, SpriteCovers s.mem s.i.toNat (s.getV x).toNat (s.getV y).toNat n.toNat c ∧ s.fb[c] = true) →
        t.getV 15 = 1) ∧
      ((¬ ∃ c, ∃ hc : c < 2048, SpriteCovers s.mem s.i.toNat (s.getV x).toNat (s.getV y).toNat n.toNat c ∧ s.fb[c] = true) →
        t.getV 15 = 0)

/-- R96, R39: where row k is the first outside memory, the rows before it are painted, VF is not written, and the fault carries I + k:
the spec's decisions D11 and D10. -/
def Obligations.DrawFaultPaintsTheRowsBefore : Prop :=
  ∀ (s : State) (x y : RegIdx) (n : Nibble) (k : Nat), k < n.toNat → 4096 ≤ s.i.toNat + k → (∀ j, j < k → s.i.toNat + j < 4096) →
    ∃ t, exec (.drw x y n) s = .next t ∧ t = { s with fb := t.fb, result := .fault (.memoryFault (s.i.toNat + k)) } ∧
      ∀ c (hc : c < 2048),
        (SpriteCovers s.mem s.i.toNat (s.getV x).toNat (s.getV y).toNat k c → t.fb[c] = !s.fb[c]) ∧
        (¬ SpriteCovers s.mem s.i.toNat (s.getV x).toNat (s.getV y).toNat k c → t.fb[c] = s.fb[c])

/-- R96 (vector W7): drawing the same sprite twice at the same place restores the screen, and the second draw reports a collision exactly if the
sprite has a set bit whose cell the first draw lit. The coordinates are not in VF, which the first draw overwrites. -/
def Obligations.DrawingTwiceRestoresTheScreen : Prop :=
  ∀ (s : State) (x y : RegIdx) (n : Nibble), x ≠ 15 → y ≠ 15 → (n.toNat = 0 ∨ s.i.toNat + n.toNat ≤ 4096) →
    ∃ t u, exec (.drw x y n) s = .next t ∧ exec (.drw x y n) t = .next u ∧ u.fb = s.fb ∧
      (u.getV 15 = 1 ↔ ∃ c, ∃ hc : c < 2048,
        SpriteCovers s.mem s.i.toNat (s.getV x).toNat (s.getV y).toNat n.toNat c ∧ s.fb[c] = false)

/-! ## Index register and memory instructions -/

/-- R97, R98, R99: setting I, adding to I modulo 65536 with no flag, and pointing I at a glyph. The width of the sum and its
want of a flag are the spec's decision D7. -/
def Obligations.IndexRegisterInstructions : Prop :=
  ∀ (s : State) (nnn : Imm12) (x : RegIdx),
    (∃ t, exec (.ldI nnn) s = .next t ∧ t = { s with i := t.i, result := .ok } ∧ t.i.toNat = nnn.toNat) ∧
    (∃ t, exec (.addI x) s = .next t ∧ t = { s with i := t.i, result := .ok } ∧
      t.i.toNat = (s.i.toNat + (s.getV x).toNat) % 65536) ∧
    ∃ t, exec (.ldF x) s = .next t ∧ t = { s with i := t.i, result := .ok } ∧ t.i.toNat = 0x000 + 5 * ((s.getV x).toNat % 16)

/-- R100, R39: the decimal digits of V[x] at I, I + 1, I + 2, those in memory; the first address outside raises the fault, and nothing but
memory changes. The order and the partial effect are the spec's decision D11, addresses without wrap D10. -/
def Obligations.StoreDecimalDigits : Prop :=
  ∀ (s : State) (x : RegIdx), ∃ t, exec (.ldB x) s = .next t ∧ t = { s with mem := t.mem, result := t.result } ∧
    (s.i.toNat < 4096 → (memGet t.mem s.i.toNat).toNat = (s.getV x).toNat / 100) ∧
    (s.i.toNat + 1 < 4096 → (memGet t.mem (s.i.toNat + 1)).toNat = (s.getV x).toNat / 10 % 10) ∧
    (s.i.toNat + 2 < 4096 → (memGet t.mem (s.i.toNat + 2)).toNat = (s.getV x).toNat % 10) ∧
    (∀ a, (a < s.i.toNat ∨ s.i.toNat + 3 ≤ a ∨ 4096 ≤ a) → memGet t.mem a = memGet s.mem a) ∧
    (s.i.toNat + 3 ≤ 4096 → t.result = .ok) ∧
    ∀ k, k < 3 → 4096 ≤ s.i.toNat + k → (∀ j, j < k → s.i.toNat + j < 4096) → t.result = .fault (.memoryFault (s.i.toNat + k))

/-- R101, R39: V0..Vx at I upward, those in memory; the first address outside raises the fault, and nothing but memory changes. That I
stays is the spec's decision D6, addresses without wrap D10. -/
def Obligations.StoreRegisterBlock : Prop :=
  ∀ (s : State) (x : RegIdx), ∃ t, exec (.storeRegs x) s = .next t ∧ t = { s with mem := t.mem, result := t.result } ∧
    (∀ j : RegIdx, j ≤ x → s.i.toNat + j.val < 4096 → memGet t.mem (s.i.toNat + j.val) = s.getV j) ∧
    (∀ a, (a < s.i.toNat ∨ s.i.toNat + (x.val + 1) ≤ a ∨ 4096 ≤ a) → memGet t.mem a = memGet s.mem a) ∧
    (s.i.toNat + x.val < 4096 → t.result = .ok) ∧
    ∀ k, k ≤ x.val → 4096 ≤ s.i.toNat + k → (∀ j, j < k → s.i.toNat + j < 4096) → t.result = .fault (.memoryFault (s.i.toNat + k))

/-- R102, R39: V0..Vx from I upward, those in memory; the first address outside raises the fault, and nothing but registers changes. That I
stays is the spec's decision D6, addresses without wrap D10. -/
def Obligations.LoadRegisterBlock : Prop :=
  ∀ (s : State) (x : RegIdx), ∃ t, exec (.loadRegs x) s = .next t ∧ t = { s with v := t.v, result := t.result } ∧
    (∀ j : RegIdx, t.getV j = if j ≤ x ∧ s.i.toNat + j.val < 4096 then memGet s.mem (s.i.toNat + j.val) else s.getV j) ∧
    (s.i.toNat + x.val < 4096 → t.result = .ok) ∧
    ∀ k, k ≤ x.val → 4096 ≤ s.i.toNat + k → (∀ j, j < k → s.i.toNat + j < 4096) → t.result = .fault (.memoryFault (s.i.toNat + k))
end

