-- ==== Sys2Proof/Laws/Decode.lean ====
section
/-! SUPPORT. The bits and the fields of an encoded opcode, and an opcode from its fields. -/

namespace Sys2Proof

theorem encNNN_getLsbD (o : Nibble) (nnn : Imm12) (j : Nat) :
    (encNNN o nnn).getLsbD j = if j < 12 then nnn.getLsbD j else o.getLsbD (j - 12) :=
  BitVec.getLsbD_append (x := o) (y := nnn)

theorem encXKK_getLsbD (o : Nibble) (x : RegIdx) (kk : Byte) (j : Nat) :
    (encXKK o x kk).getLsbD j =
      if j < 8 then kk.getLsbD j else if j < 12 then (regField x).getLsbD (j - 8) else o.getLsbD (j - 12) := by
  refine (BitVec.getLsbD_append (x := o ++ regField x) (y := kk)).trans ?_
  rw [BitVec.getLsbD_append]
  by_cases h : j < 8
  · simp [h]
  · by_cases h2 : j < 12
    · simp [h, h2, show j - 8 < 4 by omega]
    · simp [h, h2, show ¬ j - 8 < 4 by omega, show j - 8 - 4 = j - 12 by omega]

theorem encXYN_getLsbD (o : Nibble) (x y : RegIdx) (n : Nibble) (j : Nat) :
    (encXYN o x y n).getLsbD j =
      if j < 4 then n.getLsbD j else if j < 8 then (regField y).getLsbD (j - 4)
      else if j < 12 then (regField x).getLsbD (j - 8) else o.getLsbD (j - 12) := by
  refine (BitVec.getLsbD_append (x := o ++ regField x ++ regField y) (y := n)).trans ?_
  rw [BitVec.getLsbD_append, BitVec.getLsbD_append]
  by_cases h : j < 4
  · simp [h]
  · by_cases h2 : j < 8
    · simp [h, h2, show j - 4 < 4 by omega]
    · by_cases h3 : j < 12
      · simp [h, h2, h3, show ¬ j - 4 < 4 by omega, show j - 4 - 4 = j - 8 by omega, show j - 8 < 4 by omega]
      · simp [h, h2, h3, show ¬ j - 4 < 4 by omega, show ¬ j - 4 - 4 < 4 by omega, show j - 4 - 4 - 4 = j - 12 by omega]

@[simp] theorem fieldO_encNNN (o : Nibble) (nnn : Imm12) : fieldO (encNNN o nnn) = o := by
  ext j hj; simp [fieldO, encNNN_getLsbD, BitVec.getLsbD_eq_getElem hj]

@[simp] theorem fieldNNN_encNNN (o : Nibble) (nnn : Imm12) : fieldNNN (encNNN o nnn) = nnn := by
  ext j hj; simp [fieldNNN, encNNN_getLsbD, hj]

@[simp] theorem fieldO_encXKK (o : Nibble) (x : RegIdx) (kk : Byte) : fieldO (encXKK o x kk) = o := by
  ext j hj; simp [fieldO, encXKK_getLsbD, show ¬ 12 + j < 8 by omega, BitVec.getLsbD_eq_getElem hj]

@[simp] theorem fieldKK_encXKK (o : Nibble) (x : RegIdx) (kk : Byte) : fieldKK (encXKK o x kk) = kk := by
  ext j hj; simp [fieldKK, encXKK_getLsbD, hj]

theorem regField_toFin (x : RegIdx) : (regField x).toFin = x := rfl

@[simp] theorem fieldX_encXKK (o : Nibble) (x : RegIdx) (kk : Byte) : fieldX (encXKK o x kk) = x := by
  refine Eq.trans (congrArg BitVec.toFin ?_) (regField_toFin x)
  ext j hj; simp [encXKK_getLsbD, show 8 + j < 12 by omega, BitVec.getLsbD_eq_getElem hj]

@[simp] theorem fieldO_encXYN (o : Nibble) (x y : RegIdx) (n : Nibble) : fieldO (encXYN o x y n) = o := by
  ext j hj; simp [fieldO, encXYN_getLsbD, show ¬ 12 + j < 4 by omega, show ¬ 12 + j < 8 by omega, BitVec.getLsbD_eq_getElem hj]

@[simp] theorem fieldX_encXYN (o : Nibble) (x y : RegIdx) (n : Nibble) : fieldX (encXYN o x y n) = x := by
  refine Eq.trans (congrArg BitVec.toFin ?_) (regField_toFin x)
  ext j hj; simp [encXYN_getLsbD, show 8 + j < 12 by omega, show ¬ 8 + j < 4 by omega, BitVec.getLsbD_eq_getElem hj]

@[simp] theorem fieldY_encXYN (o : Nibble) (x y : RegIdx) (n : Nibble) : fieldY (encXYN o x y n) = y := by
  refine Eq.trans (congrArg BitVec.toFin ?_) (regField_toFin y)
  ext j hj; simp [encXYN_getLsbD, show 4 + j < 8 by omega, BitVec.getLsbD_eq_getElem hj]

@[simp] theorem fieldN_encXYN (o : Nibble) (x y : RegIdx) (n : Nibble) : fieldN (encXYN o x y n) = n := by
  ext j hj; simp [fieldN, encXYN_getLsbD, hj]

theorem regField_fieldX_getLsbD (op : Opcode) (j : Nat) : (regField (fieldX op)).getLsbD j = (decide (j < 4) && op.getLsbD (8 + j)) :=
  BitVec.getLsbD_extractLsb' ..

theorem regField_fieldY_getLsbD (op : Opcode) (j : Nat) : (regField (fieldY op)).getLsbD j = (decide (j < 4) && op.getLsbD (4 + j)) :=
  BitVec.getLsbD_extractLsb' ..

/-- An opcode is its NNN fields. -/
theorem encNNN_fields (op : Opcode) : encNNN (fieldO op) (fieldNNN op) = op := by
  refine BitVec.eq_of_getLsbD_eq fun j hj => ?_
  rw [encNNN_getLsbD]
  split
  · next h => simp [fieldNNN, h]
  · next h => simp [fieldO, show j - 12 < 4 by omega, show 12 + (j - 12) = j by omega]

/-- An opcode is its XKK fields. -/
theorem encXKK_fields (op : Opcode) : encXKK (fieldO op) (fieldX op) (fieldKK op) = op := by
  refine BitVec.eq_of_getLsbD_eq fun j hj => ?_
  rw [encXKK_getLsbD, regField_fieldX_getLsbD]
  split
  · next h => simp [fieldKK, h]
  · split
    · next h h2 => simp [show j - 8 < 4 by omega, show 8 + (j - 8) = j by omega]
    · next h h2 => simp [fieldO, show j - 12 < 4 by omega, show 12 + (j - 12) = j by omega]

/-- An opcode is its XYN fields. -/
theorem encXYN_fields (op : Opcode) : encXYN (fieldO op) (fieldX op) (fieldY op) (fieldN op) = op := by
  refine BitVec.eq_of_getLsbD_eq fun j hj => ?_
  rw [encXYN_getLsbD, regField_fieldX_getLsbD, regField_fieldY_getLsbD]
  split
  · next h => simp [fieldN, h]
  · split
    · next h h2 => simp [show j - 4 < 4 by omega, show 4 + (j - 4) = j by omega]
    · split
      · next h h2 h3 => simp [show j - 8 < 4 by omega, show 8 + (j - 8) = j by omega]
      · next h h2 h3 => simp [fieldO, show j - 12 < 4 by omega, show 12 + (j - 12) = j by omega]

/-- An opcode is its two bytes in memory order. -/
@[simp] theorem opcodeOfBytes_bytes (op : Opcode) : opcodeOfBytes (op.extractLsb' 8 8) (op.extractLsb' 0 8) = op := by
  refine BitVec.eq_of_getLsbD_eq fun j hj => ?_
  refine (BitVec.getLsbD_append (x := op.extractLsb' 8 8) (y := op.extractLsb' 0 8)).trans ?_
  split
  · next h => simp [h]
  · next h => simp [show j - 8 < 8 by omega, show 8 + (j - 8) = j by omega]

end Sys2Proof
end

