-- ==== Sys2Proof/Laws/Memory.lean ====
section
/-! SUPPORT. The laws of memory: a read after a write, every operation keeps the canonical form, and memories in canonical form that read
the same are equal. -/

namespace Sys2Proof.Machine

theorem memGet_memErase (m : Memory) (a b : Nat) :
    memGet (memErase m a) b = if b = a then 0 else memGet m b := by
  induction m with
  | nil => simp [memErase, memGet]
  | cons c rest ih =>
    obtain ⟨k, v⟩ := c
    by_cases h : k = a
    · rw [memErase, if_pos h, ih, memGet]
      by_cases hb : b = a
      · simp [hb]
      · simp [hb, show ¬ k = b by omega]
    · rw [memErase, if_neg h, memGet, memGet, ih]
      by_cases hb : k = b
      · simp [hb, show ¬ b = a by omega]
      · simp [hb]

theorem memGet_memInsert (m : Memory) (a b : Nat) (v : Byte) :
    memGet (memInsert (memErase m a) a v) b = if b = a then v else memGet m b := by
  induction m with
  | nil =>
    by_cases h : b = a
    · simp [memErase, memInsert, memGet, h]
    · simp [memErase, memInsert, memGet, h, show ¬ a = b by omega]
  | cons c rest ih =>
    obtain ⟨k, w⟩ := c
    by_cases h : k = a
    · rw [memErase, if_pos h, ih, memGet]
      by_cases hb : b = a
      · simp [hb]
      · simp [hb, show ¬ k = b by omega]
    · rw [memErase, if_neg h, memInsert]
      by_cases hlt : a < k
      · rw [if_pos hlt]
        simp only [memGet, memGet_memErase]
        by_cases hb : b = a
        · simp [hb]
        · by_cases hk : k = b
          · simp [hb, hk, show ¬ a = b by omega]
          · simp [hb, hk, show ¬ a = b by omega]
      · rw [if_neg hlt, memGet, ih, memGet]
        by_cases hb : k = b
        · simp [hb, show ¬ b = a by omega]
        · simp [hb]

/-- Reading a byte after writing one, in any memory. -/
@[simp] theorem memGet_memPut (m : Memory) (a b : Nat) (v : Byte) :
    memGet (memPut m a v) b = if b = a then v else memGet m b := by
  unfold memPut
  split
  · next h => rw [memGet_memErase, h]
  · exact memGet_memInsert m a b v

theorem cellsWf_cons {lo k : Nat} {v : Byte} {rest : Memory} :
    cellsWf lo ((k, v) :: rest) = true ↔ lo ≤ k ∧ k < 4096 ∧ v ≠ 0 ∧ cellsWf (k + 1) rest = true := by
  simp [cellsWf, and_assoc]

theorem cellsWf_mono {m : Memory} {lo lo' : Nat} (h : lo' ≤ lo) (hw : cellsWf lo m = true) : cellsWf lo' m = true := by
  cases m with
  | nil => rfl
  | cons c rest =>
    obtain ⟨k, v⟩ := c
    rw [cellsWf_cons] at hw ⊢
    exact ⟨h.trans hw.1, hw.2⟩

theorem cellsWf_memErase {m : Memory} {lo : Nat} (a : Nat) (hw : cellsWf lo m = true) : cellsWf lo (memErase m a) = true := by
  induction m generalizing lo with
  | nil => rfl
  | cons c rest ih =>
    obtain ⟨k, v⟩ := c
    rw [cellsWf_cons] at hw
    rw [memErase]
    split
    · exact cellsWf_mono (by omega) (ih hw.2.2.2)
    · exact cellsWf_cons.2 ⟨hw.1, hw.2.1, hw.2.2.1, ih hw.2.2.2⟩

theorem cellsWf_memInsert {m : Memory} {lo a : Nat} {v : Byte} (hlo : lo ≤ a) (ha : a < 4096) (hv : v ≠ 0)
    (hw : cellsWf lo m = true) : cellsWf lo (memInsert (memErase m a) a v) = true := by
  induction m generalizing lo with
  | nil => exact cellsWf_cons.2 ⟨hlo, ha, hv, rfl⟩
  | cons c rest ih =>
    obtain ⟨k, w⟩ := c
    rw [cellsWf_cons] at hw
    rw [memErase]
    split
    · exact ih hlo (cellsWf_mono (by omega) hw.2.2.2)
    · rw [memInsert]
      split
      · exact cellsWf_cons.2 ⟨hlo, ha, hv, cellsWf_cons.2 ⟨by omega, hw.2.1, hw.2.2.1, cellsWf_memErase a hw.2.2.2⟩⟩
      · exact cellsWf_cons.2 ⟨hw.1, hw.2.1, hw.2.2.1, ih (by omega) hw.2.2.2⟩

/-- A write inside memory keeps the canonical form. -/
theorem wf_memPut {m : Memory} {a : Nat} (v : Byte) (ha : a < 4096) (hw : m.wf = true) : Memory.wf (memPut m a v) = true := by
  unfold memPut
  split
  · exact cellsWf_memErase a hw
  · next hv => exact cellsWf_memInsert (Nat.zero_le a) ha hv hw

/-- A load inside memory keeps the canonical form. -/
theorem wf_putBytes {m : Memory} {a : Nat} {bs : List Byte} (ha : a + bs.length ≤ 4096) (hw : m.wf = true) :
    Memory.wf (putBytes m a bs) = true := by
  induction bs generalizing m a with
  | nil => exact hw
  | cons b bs ih =>
    simp only [List.length_cons] at ha
    exact ih (by omega) (wf_memPut b (by omega) hw)

/-- What reads after a load: the loaded bytes where they were put, the old ones elsewhere. -/
theorem memGet_putBytes (m : Memory) (a : Nat) (bs : List Byte) (b : Nat) :
    memGet (putBytes m a bs) b = if a ≤ b ∧ b < a + bs.length then bs.getD (b - a) 0 else memGet m b := by
  induction bs generalizing m a with
  | nil => simp [putBytes, show ¬ (a ≤ b ∧ b < a) by omega]
  | cons x bs ih =>
    rw [putBytes, ih, memGet_memPut]
    simp only [List.length_cons]
    by_cases h : b = a
    · simp [h]
    · by_cases h2 : a + 1 ≤ b ∧ b < a + 1 + bs.length
      · obtain ⟨d, hd⟩ : ∃ d, b - a = d + 1 := ⟨b - a - 1, by omega⟩
        rw [if_pos h2, if_pos (by omega), hd, List.getD_cons_succ, show b - (a + 1) = d by omega]
      · rw [if_neg h2, if_neg h, if_neg (by omega)]

theorem memGet_of_lt {m : Memory} {lo a : Nat} (hw : cellsWf lo m = true) (h : a < lo) : memGet m a = 0 := by
  induction m generalizing lo with
  | nil => rfl
  | cons c rest ih =>
    obtain ⟨k, v⟩ := c
    rw [cellsWf_cons] at hw
    rw [memGet, if_neg (by omega)]
    exact ih hw.2.2.2 (by omega)

/-- In a memory in canonical form nothing is stored at or above 4096. -/
theorem memGet_of_ge {m : Memory} {lo a : Nat} (hw : cellsWf lo m = true) (h : 4096 ≤ a) : memGet m a = 0 := by
  induction m generalizing lo with
  | nil => rfl
  | cons c rest ih =>
    obtain ⟨k, v⟩ := c
    rw [cellsWf_cons] at hw
    rw [memGet, if_neg (by omega)]
    exact ih hw.2.2.2

theorem cellsWf_ext {m n : Memory} {lo : Nat} (hm : cellsWf lo m = true) (hn : cellsWf lo n = true)
    (h : ∀ a, memGet m a = memGet n a) : m = n := by
  induction m generalizing n lo with
  | nil =>
    cases n with
    | nil => rfl
    | cons c rest =>
      obtain ⟨k, v⟩ := c
      rw [cellsWf_cons] at hn
      exact absurd (by simpa [memGet] using (h k).symm) hn.2.2.1
  | cons c rest ih =>
    obtain ⟨k, v⟩ := c
    have hm' := cellsWf_cons.1 hm
    cases n with
    | nil => exact absurd (by simpa [memGet] using h k) hm'.2.2.1
    | cons d rest' =>
      obtain ⟨k', v'⟩ := d
      have hn' := cellsWf_cons.1 hn
      have hk : k = k' := by
        rcases Nat.lt_trichotomy k k' with hlt | he | hgt
        · have := h k
          rw [memGet, if_pos rfl, memGet, if_neg (by omega), memGet_of_lt hn'.2.2.2 (by omega)] at this
          exact absurd this hm'.2.2.1
        · exact he
        · have := h k'
          rw [memGet, if_neg (by omega), memGet_of_lt hm'.2.2.2 (by omega), memGet, if_pos rfl] at this
          exact absurd this.symm hn'.2.2.1
      subst hk
      have hv : v = v' := by simpa [memGet] using h k
      subst hv
      have hr : rest = rest' := by
        refine ih hm'.2.2.2 hn'.2.2.2 fun a => ?_
        by_cases ha : k = a
        · rw [← ha, memGet_of_lt hm'.2.2.2 (by omega), memGet_of_lt hn'.2.2.2 (by omega)]
        · simpa [memGet, ha] using h a
      rw [hr]

/-- Two memories in canonical form that read the same at every address are the same memory. -/
theorem Memory.ext_of_wf {m n : Memory} (hm : m.wf = true) (hn : n.wf = true) (h : ∀ a, memGet m a = memGet n a) : m = n :=
  cellsWf_ext hm hn h

/-- Memory after reset is in canonical form, with or without the font. -/
theorem wf_resetMemory (preloadFont : Bool) : Memory.wf (resetMemory preloadFont) = true := by
  cases preloadFont <;> decide

end Sys2Proof.Machine
end

