-- ==== Sys2Proof/Laws/State.lean ====
section
/-! SUPPORT. What each named update of the state leaves unchanged, field by field, and what it reads back: so that no proof unfolds a
record update. -/

namespace Sys2Proof.Machine

@[simp] theorem State.setV_pc (s : State) (r : RegIdx) (b : Byte) : (s.setV r b).pc = s.pc := rfl
@[simp] theorem State.setV_i (s : State) (r : RegIdx) (b : Byte) : (s.setV r b).i = s.i := rfl
@[simp] theorem State.setV_stack (s : State) (r : RegIdx) (b : Byte) : (s.setV r b).stack = s.stack := rfl
@[simp] theorem State.setV_sp (s : State) (r : RegIdx) (b : Byte) : (s.setV r b).sp = s.sp := rfl
@[simp] theorem State.setV_dt (s : State) (r : RegIdx) (b : Byte) : (s.setV r b).dt = s.dt := rfl
@[simp] theorem State.setV_st (s : State) (r : RegIdx) (b : Byte) : (s.setV r b).st = s.st := rfl
@[simp] theorem State.setV_keys (s : State) (r : RegIdx) (b : Byte) : (s.setV r b).keys = s.keys := rfl
@[simp] theorem State.setV_fb (s : State) (r : RegIdx) (b : Byte) : (s.setV r b).fb = s.fb := rfl
@[simp] theorem State.setV_mem (s : State) (r : RegIdx) (b : Byte) : (s.setV r b).mem = s.mem := rfl
@[simp] theorem State.setV_result (s : State) (r : RegIdx) (b : Byte) : (s.setV r b).result = s.result := rfl
@[simp] theorem State.setV_draws (s : State) (r : RegIdx) (b : Byte) : (s.setV r b).draws = s.draws := rfl

@[simp] theorem State.setFlag_pc (s : State) (f : Bool) : (s.setFlag f).pc = s.pc := rfl
@[simp] theorem State.setFlag_i (s : State) (f : Bool) : (s.setFlag f).i = s.i := rfl
@[simp] theorem State.setFlag_stack (s : State) (f : Bool) : (s.setFlag f).stack = s.stack := rfl
@[simp] theorem State.setFlag_sp (s : State) (f : Bool) : (s.setFlag f).sp = s.sp := rfl
@[simp] theorem State.setFlag_dt (s : State) (f : Bool) : (s.setFlag f).dt = s.dt := rfl
@[simp] theorem State.setFlag_st (s : State) (f : Bool) : (s.setFlag f).st = s.st := rfl
@[simp] theorem State.setFlag_keys (s : State) (f : Bool) : (s.setFlag f).keys = s.keys := rfl
@[simp] theorem State.setFlag_fb (s : State) (f : Bool) : (s.setFlag f).fb = s.fb := rfl
@[simp] theorem State.setFlag_mem (s : State) (f : Bool) : (s.setFlag f).mem = s.mem := rfl
@[simp] theorem State.setFlag_result (s : State) (f : Bool) : (s.setFlag f).result = s.result := rfl
@[simp] theorem State.setFlag_draws (s : State) (f : Bool) : (s.setFlag f).draws = s.draws := rfl

@[simp] theorem State.setWithFlag_pc (s : State) (x : RegIdx) (p : Byte × Bool) : (s.setWithFlag x p).pc = s.pc := rfl
@[simp] theorem State.setWithFlag_i (s : State) (x : RegIdx) (p : Byte × Bool) : (s.setWithFlag x p).i = s.i := rfl
@[simp] theorem State.setWithFlag_stack (s : State) (x : RegIdx) (p : Byte × Bool) : (s.setWithFlag x p).stack = s.stack := rfl
@[simp] theorem State.setWithFlag_sp (s : State) (x : RegIdx) (p : Byte × Bool) : (s.setWithFlag x p).sp = s.sp := rfl
@[simp] theorem State.setWithFlag_dt (s : State) (x : RegIdx) (p : Byte × Bool) : (s.setWithFlag x p).dt = s.dt := rfl
@[simp] theorem State.setWithFlag_st (s : State) (x : RegIdx) (p : Byte × Bool) : (s.setWithFlag x p).st = s.st := rfl
@[simp] theorem State.setWithFlag_keys (s : State) (x : RegIdx) (p : Byte × Bool) : (s.setWithFlag x p).keys = s.keys := rfl
@[simp] theorem State.setWithFlag_fb (s : State) (x : RegIdx) (p : Byte × Bool) : (s.setWithFlag x p).fb = s.fb := rfl
@[simp] theorem State.setWithFlag_mem (s : State) (x : RegIdx) (p : Byte × Bool) : (s.setWithFlag x p).mem = s.mem := rfl
@[simp] theorem State.setWithFlag_result (s : State) (x : RegIdx) (p : Byte × Bool) : (s.setWithFlag x p).result = s.result := rfl
@[simp] theorem State.setWithFlag_draws (s : State) (x : RegIdx) (p : Byte × Bool) : (s.setWithFlag x p).draws = s.draws := rfl

@[simp] theorem State.advance_v (s : State) : (s.advance).v = s.v := rfl
@[simp] theorem State.advance_i (s : State) : (s.advance).i = s.i := rfl
@[simp] theorem State.advance_stack (s : State) : (s.advance).stack = s.stack := rfl
@[simp] theorem State.advance_sp (s : State) : (s.advance).sp = s.sp := rfl
@[simp] theorem State.advance_dt (s : State) : (s.advance).dt = s.dt := rfl
@[simp] theorem State.advance_st (s : State) : (s.advance).st = s.st := rfl
@[simp] theorem State.advance_keys (s : State) : (s.advance).keys = s.keys := rfl
@[simp] theorem State.advance_fb (s : State) : (s.advance).fb = s.fb := rfl
@[simp] theorem State.advance_mem (s : State) : (s.advance).mem = s.mem := rfl
@[simp] theorem State.advance_result (s : State) : (s.advance).result = s.result := rfl
@[simp] theorem State.advance_draws (s : State) : (s.advance).draws = s.draws := rfl

@[simp] theorem State.rewind_v (s : State) : (s.rewind).v = s.v := rfl
@[simp] theorem State.rewind_i (s : State) : (s.rewind).i = s.i := rfl
@[simp] theorem State.rewind_stack (s : State) : (s.rewind).stack = s.stack := rfl
@[simp] theorem State.rewind_sp (s : State) : (s.rewind).sp = s.sp := rfl
@[simp] theorem State.rewind_dt (s : State) : (s.rewind).dt = s.dt := rfl
@[simp] theorem State.rewind_st (s : State) : (s.rewind).st = s.st := rfl
@[simp] theorem State.rewind_keys (s : State) : (s.rewind).keys = s.keys := rfl
@[simp] theorem State.rewind_fb (s : State) : (s.rewind).fb = s.fb := rfl
@[simp] theorem State.rewind_mem (s : State) : (s.rewind).mem = s.mem := rfl
@[simp] theorem State.rewind_result (s : State) : (s.rewind).result = s.result := rfl
@[simp] theorem State.rewind_draws (s : State) : (s.rewind).draws = s.draws := rfl

@[simp] theorem State.skipIf_v (s : State) (c : Bool) : (s.skipIf c).v = s.v := by
  cases c <;> rfl
@[simp] theorem State.skipIf_i (s : State) (c : Bool) : (s.skipIf c).i = s.i := by
  cases c <;> rfl
@[simp] theorem State.skipIf_stack (s : State) (c : Bool) : (s.skipIf c).stack = s.stack := by
  cases c <;> rfl
@[simp] theorem State.skipIf_sp (s : State) (c : Bool) : (s.skipIf c).sp = s.sp := by
  cases c <;> rfl
@[simp] theorem State.skipIf_dt (s : State) (c : Bool) : (s.skipIf c).dt = s.dt := by
  cases c <;> rfl
@[simp] theorem State.skipIf_st (s : State) (c : Bool) : (s.skipIf c).st = s.st := by
  cases c <;> rfl
@[simp] theorem State.skipIf_keys (s : State) (c : Bool) : (s.skipIf c).keys = s.keys := by
  cases c <;> rfl
@[simp] theorem State.skipIf_fb (s : State) (c : Bool) : (s.skipIf c).fb = s.fb := by
  cases c <;> rfl
@[simp] theorem State.skipIf_mem (s : State) (c : Bool) : (s.skipIf c).mem = s.mem := by
  cases c <;> rfl
@[simp] theorem State.skipIf_result (s : State) (c : Bool) : (s.skipIf c).result = s.result := by
  cases c <;> rfl
@[simp] theorem State.skipIf_draws (s : State) (c : Bool) : (s.skipIf c).draws = s.draws := by
  cases c <;> rfl

@[simp] theorem State.advance_pc (s : State) : s.advance.pc = s.pc + 2 := rfl
@[simp] theorem State.rewind_pc (s : State) : s.rewind.pc = s.pc - 2 := rfl
@[simp] theorem State.skipIf_pc (s : State) (c : Bool) : (s.skipIf c).pc = if c then s.pc + 2 else s.pc := by
  cases c <;> rfl

@[simp] theorem State.advance_getV (s : State) (q : RegIdx) : s.advance.getV q = s.getV q := rfl
@[simp] theorem State.rewind_getV (s : State) (q : RegIdx) : s.rewind.getV q = s.getV q := rfl
@[simp] theorem State.skipIf_getV (s : State) (c : Bool) (q : RegIdx) : (s.skipIf c).getV q = s.getV q := by
  cases c <;> rfl

/-- Reading a register after writing one. -/
@[simp] theorem State.getV_setV (s : State) (r q : RegIdx) (b : Byte) :
    (s.setV r b).getV q = if q = r then b else s.getV q := by
  unfold State.getV State.setV
  rw [Vector.getElem_set]
  by_cases h : q = r
  · simp [h]
  · have h' : ¬ r.val = q.val := fun e => h (Fin.ext e.symm)
    simp [h, h']

/-- Reading a register after a flag write. -/
@[simp] theorem State.getV_setFlag (s : State) (q : RegIdx) (f : Bool) :
    (s.setFlag f).getV q = if q = 15 then flagByte f else s.getV q :=
  State.getV_setV s vf q (flagByte f)

/-- Reading a register after a result and its flag are written: VF holds the flag, whatever the destination (D5). -/
@[simp] theorem State.getV_setWithFlag (s : State) (x q : RegIdx) (p : Byte × Bool) :
    (s.setWithFlag x p).getV q = if q = 15 then flagByte p.2 else if q = x then p.1 else s.getV q := by
  unfold State.setWithFlag
  rw [State.getV_setFlag, State.getV_setV]

/-- A state's registers are what reading them gives. -/
theorem State.v_ext {s t : State} (h : ∀ r : RegIdx, s.getV r = t.getV r) : s.v = t.v :=
  Vector.ext fun j hj => h ⟨j, hj⟩

end Sys2Proof.Machine
end

