-- ==== Sys2Proof/Laws/Ops.lean ====
section
/-! SUPPORT. For each shared operation, one lemma that says everything it can do. -/

namespace Sys2Proof.Machine

/-- What a tick returns when it ends with perhaps a fault. -/
def resultOf : Option Fault → TickResult
  | none => .ok
  | some f => .fault f

@[simp] theorem complete_eq (s : State) : complete s = .next { s with result := .ok } := rfl

@[simp] theorem raiseFault_eq (f : Fault) (s : State) : raiseFault f s = .next { s with result := .fault f } := rfl

@[simp] theorem finish_eq (p : State × Option Fault) : finish p = .next { p.1 with result := resultOf p.2 } := by
  obtain ⟨s, _ | f⟩ := p <;> rfl

theorem memRead_of_lt {s : State} {a : Nat} (h : a < 4096) : memRead s a = .ok (memGet s.mem a) :=
  if_neg (by simp only [Config.memSize]; omega)

theorem memRead_of_ge {s : State} {a : Nat} (h : 4096 ≤ a) : memRead s a = .error (.memoryFault a) :=
  if_pos (by simpa using h)

theorem memWrite_of_lt {s : State} {a : Nat} (v : Byte) (h : a < 4096) :
    memWrite s a v = .ok { s with mem := memPut s.mem a v } :=
  if_neg (by simp only [Config.memSize]; omega)

theorem memWrite_of_ge {s : State} {a : Nat} (v : Byte) (h : 4096 ≤ a) : memWrite s a v = .error (.memoryFault a) :=
  if_pos (by simpa using h)

/-- The fault of `n` accesses at ascending addresses from `a`: none if all are in memory, else the first address that is not. -/
def rangeFault (a n : Nat) : Option Fault := if n ≤ 4096 - a then none else some (.memoryFault (max a 4096))

theorem rangeFault_zero (a : Nat) : rangeFault a 0 = none := if_pos (Nat.zero_le _)

theorem rangeFault_succ_of_lt {a n : Nat} (h : a < 4096) : rangeFault a (n + 1) = rangeFault (a + 1) n := by
  unfold rangeFault
  by_cases hn : n + 1 ≤ 4096 - a
  · rw [if_pos hn, if_pos (by omega)]
  · rw [if_neg hn, if_neg (by omega), Nat.max_eq_right (by omega), Nat.max_eq_right (by omega)]

theorem rangeFault_succ_of_ge {a n : Nat} (h : 4096 ≤ a) : rangeFault a (n + 1) = some (.memoryFault a) := by
  unfold rangeFault
  rw [if_neg (by omega), Nat.max_eq_left h]

/-- Storing bytes: those inside memory land, and the first outside raises the fault. -/
theorem storeBytes_eq (s : State) (a : Nat) (bs : List Byte) :
    storeBytes s a bs = ({ s with mem := putBytes s.mem a (bs.take (4096 - a)) }, rangeFault a bs.length) := by
  induction bs generalizing s a with
  | nil => simp [storeBytes, putBytes, rangeFault_zero]
  | cons b bs ih =>
    rw [storeBytes]
    rcases Nat.lt_or_ge a 4096 with h | h
    · obtain ⟨d, hd⟩ : ∃ d, 4096 - a = d + 1 := ⟨4096 - a - 1, by omega⟩
      rw [memWrite_of_lt b h]
      simp only [ih, List.length_cons, rangeFault_succ_of_lt h, hd, List.take_succ_cons, putBytes,
        show 4096 - (a + 1) = d by omega]
    · rw [memWrite_of_ge b h]
      simp [rangeFault_succ_of_ge h, show 4096 - a = 0 by omega, putBytes]

/-- Loading registers changes registers only, and the first address outside memory raises the fault. -/
theorem loadBytes_frame (s : State) (a : Nat) (rs : List RegIdx) :
    loadBytes s a rs = ({ s with v := (loadBytes s a rs).1.v }, rangeFault a rs.length) := by
  induction rs generalizing s a with
  | nil => simp [loadBytes, rangeFault_zero]
  | cons r rs ih =>
    rw [loadBytes]
    rcases Nat.lt_or_ge a 4096 with h | h
    · rw [memRead_of_lt h]
      simp only [List.length_cons, rangeFault_succ_of_lt h]
      rw [ih]
      rfl
    · rw [memRead_of_ge h]
      simp [rangeFault_succ_of_ge h]

/-- What each register holds after a load of distinct registers. -/
theorem loadBytes_getV (s : State) (a : Nat) {rs : List RegIdx} (hn : rs.Nodup) (q : RegIdx) :
    (loadBytes s a rs).1.getV q =
      if rs.idxOf q < rs.length ∧ rs.idxOf q < 4096 - a then memGet s.mem (a + rs.idxOf q) else s.getV q := by
  induction rs generalizing s a with
  | nil => simp [loadBytes]
  | cons r rs ih =>
    obtain ⟨hr, hrs⟩ := List.nodup_cons.1 hn
    rw [loadBytes]
    rcases Nat.lt_or_ge a 4096 with h | h
    · rw [memRead_of_lt h]
      simp only [ih _ _ hrs, State.getV_setV, State.setV_mem, List.length_cons]
      by_cases hq : q = r
      · subst hq
        simp [List.idxOf_eq_length hr, show 0 < 4096 - a by omega]
      · rw [List.idxOf_cons_ne _ (Ne.symm hq), if_neg hq]
        by_cases hc : rs.idxOf q < rs.length ∧ rs.idxOf q < 4096 - (a + 1)
        · rw [if_pos hc, if_pos (by omega), Nat.add_right_comm, Nat.add_assoc]
        · rw [if_neg hc, if_neg (by omega)]
    · rw [memRead_of_ge h]
      simp [show 4096 - a = 0 by omega]

theorem regsUpTo_nodup (x : RegIdx) : (regsUpTo x).Nodup := by revert x; decide

theorem regsUpTo_length (x : RegIdx) : (regsUpTo x).length = x.val + 1 := by revert x; decide

theorem regsUpTo_idxOf (x q : RegIdx) : (regsUpTo x).idxOf q = if q ≤ x then q.val else x.val + 1 := by
  revert x q; decide

theorem regsUpTo_getElem (x : RegIdx) (j : Nat) (h : j < (regsUpTo x).length) : ((regsUpTo x)[j]).val = j := by
  have key : ∀ (x : RegIdx) (j : Fin 16) (h : j.val < (regsUpTo x).length), ((regsUpTo x)[j.val]).val = j.val := by decide
  exact key x ⟨j, by rw [regsUpTo_length] at h; omega⟩ h

/-- Loading V0..Vx: each register inside the block whose address is in memory holds the byte there (46_index_memory.md R102). -/
theorem loadRegs_getV (s : State) (a : Nat) (x q : RegIdx) :
    (loadBytes s a (regsUpTo x)).1.getV q = if q ≤ x ∧ q.val < 4096 - a then memGet s.mem (a + q.val) else s.getV q := by
  rw [loadBytes_getV s a (regsUpTo_nodup x), regsUpTo_length, regsUpTo_idxOf]
  by_cases h : q ≤ x
  · have : q.val ≤ x.val := h
    simp [h, show q.val < x.val + 1 by omega]
  · simp [h]

/-- A push onto a stack that is not full. -/
theorem push_of_lt {s : State} (a : Addr) (h : s.sp.val < 16) :
    push s a = .ok { s with stack := s.stack.set s.sp.val a h, sp := ⟨s.sp.val + 1, Nat.succ_lt_succ h⟩ } :=
  dif_pos h

/-- A push onto a full stack. -/
theorem push_full {s : State} (a : Addr) (h : s.sp = 16) : push s a = .error .stackOverflow :=
  dif_neg (by simp [h])

/-- A push either stores the address in slot SP and counts it, or the stack is full. -/
theorem push_cases (s : State) (a : Addr) :
    (s.sp = 16 ∧ push s a = .error .stackOverflow) ∨
      ∃ h : s.sp.val < 16, push s a = .ok { s with stack := s.stack.set s.sp.val a h, sp := ⟨s.sp.val + 1, Nat.succ_lt_succ h⟩ } := by
  by_cases h : s.sp.val < 16
  · exact .inr ⟨h, push_of_lt a h⟩
  · have h16 : s.sp = 16 := Fin.ext (by have := s.sp.isLt; simp only [Config.stackCapacity] at this; simpa using (by omega : s.sp.val = 16))
    exact .inl ⟨h16, push_full a h16⟩

/-- A pop from an empty stack. -/
theorem pop_empty {s : State} (h : s.sp = 0) : pop s = .error .stackUnderflow :=
  dif_pos (by simp [h])

/-- A pop either answers the slot below SP, or the stack is empty. -/
theorem pop_cases (s : State) :
    (s.sp = 0 ∧ pop s = .error .stackUnderflow) ∨
      ∃ (j : Nat) (h : j < 16) (hs : s.sp.val = j + 1), pop s = .ok (s.stack[j], { s with sp := ⟨j, by omega⟩ }) := by
  by_cases h : s.sp.val = 0
  · exact .inl ⟨Fin.ext h, pop_empty (Fin.ext h)⟩
  · have hlt := s.sp.isLt
    simp only [Config.stackCapacity] at hlt
    refine .inr ⟨s.sp.val - 1, by omega, by omega, ?_⟩
    unfold pop
    rw [dif_neg h]

theorem getPressed_none {s : State} : getPressed s = none ↔ ∀ k : Key, s.keyDown k = false := by
  unfold getPressed
  rw [List.find?_eq_none]
  constructor
  · intro h k
    have hk : k ∈ allRegs := by revert k; decide
    simpa using h k hk
  · intro h k _
    simp [h k]

/-- The key found is pressed, and every lower one is up (44_keypad.md R88). -/
theorem getPressed_some {s : State} {k : Key} :
    getPressed s = some k ↔ s.keyDown k = true ∧ ∀ j : Key, j < k → s.keyDown j = false := by
  have key : ∀ (f : Key → Bool) (k : Key), allRegs.find? f = some k → ∀ j : Key, j < k → f j = false := by
    intro f k h j hj
    obtain ⟨_, as, bs, hab, hlt⟩ := List.find?_eq_some_iff_append.1 h
    have hpos : ∀ (as bs : List Key) (k : Key), allRegs = as ++ k :: bs → as.length = k.val := by
      intro as bs k hab
      have h1 : allRegs[as.length]? = some k := by rw [hab]; simp
      have h2 : ∀ (n : Fin 16), allRegs[n.val]? = some n := by decide
      have hlen : as.length < 16 := by
        have : allRegs.length = as.length + (bs.length + 1) := by rw [hab]; simp
        have h16 : allRegs.length = 16 := rfl
        omega
      have h3 := h2 ⟨as.length, hlen⟩
      simp only at h3
      rw [h1] at h3
      exact (congrArg Fin.val (Option.some.inj h3)).symm
    have hl := hpos as bs k hab
    have hmem : j ∈ as := by
      have h2 : ∀ (n : Fin 16), allRegs[n.val]? = some n := by decide
      have h3 := h2 j
      have hjl : j.val < as.length := by rw [hl]; exact hj
      rw [hab, List.getElem?_append_left hjl] at h3
      exact List.mem_of_getElem? h3
    simpa using hlt j hmem
  constructor
  · intro h
    exact ⟨by simpa using List.find?_some h, key _ k h⟩
  · rintro ⟨hk, hlow⟩
    cases hg : getPressed s with
    | none => rw [getPressed_none] at hg; simp [hg k] at hk
    | some j =>
      have hj : s.keyDown j = true := by simpa using List.find?_some hg
      rcases lt_trichotomy j k with hlt | he | hgt
      · rw [hlow j hlt] at hj; cases hj
      · rw [he]
      · rw [key _ j hg k hgt] at hk; cases hk

/-- Counting down a timer, in numbers: one less, but never below zero (43_timers.md R82). -/
theorem decrease_toNat (t : Byte) : (decrease t).toNat = t.toNat - 1 := by
  unfold decrease
  split
  · next h => rw [h]; rfl
  · next h =>
    have : t.toNat ≠ 0 := fun e => h (BitVec.eq_of_toNat_eq (by simpa using e))
    have := t.isLt
    rw [BitVec.toNat_sub, show (1 : Byte).toNat = 1 from rfl]
    omega

/-- A fetch inside memory. -/
theorem fetch_of_lt {s : State} (h : s.pc.toNat + 1 < 4096) :
    fetch s = .ok (opcodeOfBytes (memGet s.mem s.pc.toNat) (memGet s.mem (s.pc.toNat + 1))) := by
  unfold fetch
  rw [memRead_of_lt (show s.pc.toNat < 4096 by omega), memRead_of_lt h]

/-- A fetch that runs off memory: the fault carries the first address outside (20_memory.md R45, decision D28). -/
theorem fetch_of_ge {s : State} (h : 4096 ≤ s.pc.toNat + 1) : fetch s = .error (.memoryFault (max s.pc.toNat 4096)) := by
  unfold fetch
  rcases Nat.lt_or_ge s.pc.toNat 4096 with hlt | hge
  · rw [memRead_of_lt hlt, memRead_of_ge h, Nat.max_eq_right (by omega), show s.pc.toNat + 1 = 4096 by omega]
  · rw [memRead_of_ge hge, Nat.max_eq_left hge]

/-- A fetch reads PC and memory only. -/
theorem fetch_congr {s t : State} (hpc : s.pc = t.pc) (hm : s.mem = t.mem) : fetch s = fetch t := by
  unfold fetch memRead
  rw [hpc, hm]

end Sys2Proof.Machine
end

