-- ==== Sys2Proof/Laws/Display.lean ====
section
/-! SUPPORT. What the sprite blit does to the framebuffer, cell by cell, and when it reports a collision: the loops of Machine/Ops.lean
against their declarative reading, `SpriteCovers`. -/

namespace Sys2Proof.Machine

theorem paint_getElem (fb : Vector Bool 2048) (cx cy c : Nat) (hc : c < 2048) :
    (paint fb cx cy).1[c] = if (cellIndex cx cy).val = c then !fb[c] else fb[c] := by
  simp only [paint]
  rw [Vector.getElem_set]
  by_cases h : (cellIndex cx cy).val = c
  · subst h; simp
  · simp [h]

/-- `fb'` is `fb` with exactly the cells that meet `P` toggled. -/
abbrev Toggled (fb fb' : Vector Bool 2048) (P : Nat → Prop) : Prop :=
  ∀ c (hc : c < 2048), (P c → fb'[c] = !fb[c]) ∧ (¬ P c → fb'[c] = fb[c])

/-- Some lit cell of `fb` meets `P`. -/
abbrev SomeLit (fb : Vector Bool 2048) (P : Nat → Prop) : Prop :=
  ∃ c, ∃ hc : c < 2048, P c ∧ fb[c] = true

theorem Toggled.trans {fb fb₁ fb₂ : Vector Bool 2048} {P Q R : Nat → Prop} (h₁ : Toggled fb fb₁ P) (h₂ : Toggled fb₁ fb₂ Q)
    (hd : ∀ c, P c → ¬ Q c) (hR : ∀ c, R c ↔ P c ∨ Q c) : Toggled fb fb₂ R := by
  intro c hc
  have a := h₁ c hc
  have b := h₂ c hc
  rw [hR c]
  by_cases hp : P c
  · exact ⟨fun _ => by rw [b.2 (hd c hp), a.1 hp], fun h => absurd (.inl hp) h⟩
  · refine ⟨fun h => ?_, fun h => by rw [b.2 fun q => h (.inr q), a.2 hp]⟩
    rw [b.1 (h.resolve_left hp), a.2 hp]

theorem SomeLit.split {fb fb₁ : Vector Bool 2048} {P Q R : Nat → Prop} (h₁ : Toggled fb fb₁ P)
    (hd : ∀ c, P c → ¬ Q c) (hR : ∀ c, R c ↔ P c ∨ Q c) : SomeLit fb P ∨ SomeLit fb₁ Q ↔ SomeLit fb R := by
  constructor
  · rintro (⟨c, hc, hp, hl⟩ | ⟨c, hc, hq, hl⟩)
    · exact ⟨c, hc, (hR c).2 (.inl hp), hl⟩
    · exact ⟨c, hc, (hR c).2 (.inr hq), by rw [← (h₁ c hc).2 fun p => hd c p hq]; exact hl⟩
  · rintro ⟨c, hc, hr, hl⟩
    rcases (hR c).1 hr with hp | hq
    · exact .inl ⟨c, hc, hp, hl⟩
    · exact .inr ⟨c, hc, hq, by rw [(h₁ c hc).2 fun p => hd c p hq]; exact hl⟩

/-- One of the columns `cols` of a sprite row whose byte is `b` is set and drawn to index `c`. -/
abbrev RowCovers (b : Byte) (xs cy : Nat) (cols : List Nat) (c : Nat) : Prop :=
  ∃ k, k ∈ cols ∧ spriteBit b k = true ∧ (cellIndex (xs + k) cy).val = c

theorem rowCovers_cons {b : Byte} {xs cy k c : Nat} {cols : List Nat} :
    RowCovers b xs cy (k :: cols) c ↔ (spriteBit b k = true ∧ (cellIndex (xs + k) cy).val = c) ∨ RowCovers b xs cy cols c := by
  simp [RowCovers, or_and_right, exists_or]

theorem cellIndex_column_inj {xs cy k j : Nat} (hk : k < 8) (hj : j < 8)
    (h : (cellIndex (xs + k) cy).val = (cellIndex (xs + j) cy).val) : k = j := by
  simp only [cellIndex, Config.columns, Config.rows] at h
  omega

/-- Painting a sprite row toggles exactly the covered cells, and reports whether one of them was lit. -/
theorem paintRow_spec (b : Byte) (xs cy : Nat) {cols : List Nat} (hn : cols.Nodup) (h8 : ∀ k, k ∈ cols → k < 8)
    (fb : Vector Bool 2048) (hit : Bool) :
    Toggled fb (paintRow b xs cy cols (fb, hit)).1 (RowCovers b xs cy cols) ∧
    ((paintRow b xs cy cols (fb, hit)).2 = true ↔ hit = true ∨ SomeLit fb (RowCovers b xs cy cols)) := by
  induction cols generalizing fb hit with
  | nil => simp [paintRow, RowCovers, Toggled]
  | cons k cols ih =>
    obtain ⟨hk, hns⟩ := List.nodup_cons.1 hn
    have hk8 := h8 k (List.mem_cons_self ..)
    have ih' := ih hns (fun j hj => h8 j (List.mem_cons_of_mem _ hj))
    by_cases hb : spriteBit b k = true
    · have hdisj : ∀ c, (cellIndex (xs + k) cy).val = c → ¬ RowCovers b xs cy cols c := by
        rintro c rfl ⟨j, hj, _, he⟩
        exact hk (cellIndex_column_inj (h8 j (List.mem_cons_of_mem _ hj)) hk8 he ▸ hj)
      have hR : ∀ c, RowCovers b xs cy (k :: cols) c ↔ (cellIndex (xs + k) cy).val = c ∨ RowCovers b xs cy cols c := fun c => by
        rw [rowCovers_cons]; simp [hb]
      have ht : Toggled fb (paint fb (xs + k) cy).1 fun c => (cellIndex (xs + k) cy).val = c := fun c hc => by
        rw [paint_getElem]; exact ⟨fun h => if_pos h, fun h => if_neg h⟩
      have hold : (paint fb (xs + k) cy).2 = true ↔ SomeLit fb fun c => (cellIndex (xs + k) cy).val = c := by
        constructor
        · intro h; exact ⟨_, (cellIndex (xs + k) cy).isLt, rfl, h⟩
        · rintro ⟨c, hc, rfl, hl⟩; exact hl
      rw [paintRow, if_pos hb]
      obtain ⟨h1, h2⟩ := ih' (paint fb (xs + k) cy).1 (hit || (paint fb (xs + k) cy).2)
      refine ⟨ht.trans h1 hdisj hR, ?_⟩
      rw [h2, Bool.or_eq_true, or_assoc, hold, SomeLit.split ht hdisj hR]
    · have hR : RowCovers b xs cy (k :: cols) = RowCovers b xs cy cols := funext fun c => propext <| by
        rw [rowCovers_cons]; simp [hb]
      rw [paintRow, if_neg hb, hR]
      exact ih' fb hit

theorem rowCovers_iff (b : Byte) (xs cy c : Nat) :
    RowCovers b xs cy spriteColumns c ↔
      ∃ k, k < 8 ∧ b.getLsbD (7 - k) = true ∧ (xs + k) % 64 + 64 * (cy % 32) = c := by
  have hm : ∀ k, k ∈ spriteColumns ↔ k < 8 := by intro k; simp [spriteColumns]; omega
  simp only [RowCovers, hm, spriteBit, cellIndex, Config.columns, Config.rows]

theorem spriteCovers_zero (m : Memory) (a xs ys c : Nat) : ¬ SpriteCovers m a xs ys 0 c := by
  rintro ⟨r, hr, _⟩; omega

theorem spriteCovers_succ (m : Memory) (a xs ys n c : Nat) :
    SpriteCovers m a xs ys (n + 1) c ↔ RowCovers (memGet m a) xs ys spriteColumns c ∨ SpriteCovers m (a + 1) xs (ys + 1) n c := by
  rw [rowCovers_iff]
  constructor
  · rintro ⟨r, hr, k, hk, hb, he⟩
    cases r with
    | zero => exact .inl ⟨k, hk, hb, he⟩
    | succ r => exact .inr ⟨r, by omega, k, hk, by rwa [Nat.add_right_comm, Nat.add_assoc], by rwa [Nat.add_right_comm ys, Nat.add_assoc]⟩
  · rintro (⟨k, hk, hb, he⟩ | ⟨r, hr, k, hk, hb, he⟩)
    · exact ⟨0, by omega, k, hk, hb, he⟩
    · exact ⟨r + 1, by omega, k, hk, by rwa [← Nat.add_assoc, Nat.add_right_comm], by rwa [← Nat.add_assoc, Nat.add_right_comm ys]⟩

/-- No cell is covered by two rows of a sprite of at most 32 rows. -/
theorem row_disjoint {m : Memory} {b : Byte} {a xs ys n : Nat} (hn : n < 32) (c : Nat)
    (h : RowCovers b xs ys spriteColumns c) : ¬ SpriteCovers m a xs (ys + 1) n c := by
  rw [rowCovers_iff] at h
  rintro ⟨r, hr, k', _, _, he'⟩
  obtain ⟨k, _, _, he⟩ := h
  omega

/-- The blit: the rows inside memory are painted, each covered cell toggled once; it reports a collision if a covered cell was lit, and
the first row outside memory raises the fault. -/
theorem drawRows_spec (xs n a ys : Nat) (hit : Bool) (s : State) (hn : n ≤ 32) :
    (drawRows xs n a ys hit s).1 = { s with fb := (drawRows xs n a ys hit s).1.fb } ∧
    Toggled s.fb (drawRows xs n a ys hit s).1.fb (SpriteCovers s.mem a xs ys (min n (4096 - a))) ∧
    (n ≤ 4096 - a → ∃ h, (drawRows xs n a ys hit s).2 = .ok h ∧
      (h = true ↔ hit = true ∨ SomeLit s.fb (SpriteCovers s.mem a xs ys n))) ∧
    (¬ n ≤ 4096 - a → (drawRows xs n a ys hit s).2 = .error (.memoryFault (max a 4096))) := by
  induction n generalizing a ys hit s with
  | zero =>
    refine ⟨rfl, fun c hc => ⟨fun h => ?_, fun _ => rfl⟩, fun _ => ⟨hit, rfl, ?_⟩, fun h => absurd (Nat.zero_le _) h⟩
    · rw [Nat.zero_min] at h
      exact absurd h (spriteCovers_zero _ _ _ _ _)
    · exact ⟨.inl, fun h => h.elim id fun ⟨c, _, hc, _⟩ => absurd hc (spriteCovers_zero _ _ _ _ _)⟩
  | succ n ih =>
    rw [drawRows]
    rcases Nat.lt_or_ge a 4096 with ha | ha
    · rw [memRead_of_lt ha]
      have hcols : ∀ k, k ∈ spriteColumns → k < 8 := by decide
      obtain ⟨hp, hph⟩ := paintRow_spec (memGet s.mem a) xs ys (cols := spriteColumns) (by decide) hcols s.fb hit
      generalize hg : paintRow (memGet s.mem a) xs ys spriteColumns (s.fb, hit) = p at hp hph
      simp only [hg]
      obtain ⟨h1, h2, h3, h4⟩ := ih (a + 1) (ys + 1) p.2 { s with fb := p.1 } (by omega)
      refine ⟨?_, ?_, fun hle => ?_, fun hle => ?_⟩
      · rw [h1]
      · rw [show min (n + 1) (4096 - a) = min n (4096 - (a + 1)) + 1 by omega]
        exact hp.trans h2 (row_disjoint (by omega)) (spriteCovers_succ s.mem a xs ys _)
      · obtain ⟨h, he, hiff⟩ := h3 (by omega)
        refine ⟨h, he, ?_⟩
        rw [hiff, hph, or_assoc, SomeLit.split hp (row_disjoint (by omega)) (spriteCovers_succ s.mem a xs ys n)]
      · rw [h4 (by omega), Nat.max_eq_right (by omega), Nat.max_eq_right (by omega)]
    · rw [memRead_of_ge ha]
      refine ⟨rfl, fun c hc => ⟨fun h => ?_, fun _ => rfl⟩, fun hle => absurd hle (by omega), fun _ => by rw [Nat.max_eq_left ha]⟩
      rw [show min (n + 1) (4096 - a) = 0 by omega] at h
      exact absurd h (spriteCovers_zero _ _ _ _ _)

end Sys2Proof.Machine
end

