-- ==== Sys2Proof/Laws/PerInstr.lean ====
section
/-! SUPPORT. A statement made per instruction: the encoder agrees with the match and mask of the instruction's row of
spec/opcode_table.json (30_encoding.md R49). -/

namespace Sys2Proof.Laws.TableRow

/-- The mask and match of each row of spec/opcode_table.json, as the file gives them. -/
def row : Instr → Opcode × Opcode
  | .sys _ => (0xF000#16, 0x0000#16)
  | .cls => (0xFFFF#16, 0x00E0#16)
  | .ret => (0xFFFF#16, 0x00EE#16)
  | .jp _ => (0xF000#16, 0x1000#16)
  | .call _ => (0xF000#16, 0x2000#16)
  | .seByte _ _ => (0xF000#16, 0x3000#16)
  | .sneByte _ _ => (0xF000#16, 0x4000#16)
  | .seReg _ _ => (0xF00F#16, 0x5000#16)
  | .ldByte _ _ => (0xF000#16, 0x6000#16)
  | .addByte _ _ => (0xF000#16, 0x7000#16)
  | .ldReg _ _ => (0xF00F#16, 0x8000#16)
  | .orReg _ _ => (0xF00F#16, 0x8001#16)
  | .andReg _ _ => (0xF00F#16, 0x8002#16)
  | .xorReg _ _ => (0xF00F#16, 0x8003#16)
  | .addReg _ _ => (0xF00F#16, 0x8004#16)
  | .subReg _ _ => (0xF00F#16, 0x8005#16)
  | .shr _ _ => (0xF00F#16, 0x8006#16)
  | .subnReg _ _ => (0xF00F#16, 0x8007#16)
  | .shl _ _ => (0xF00F#16, 0x800E#16)
  | .sneReg _ _ => (0xF00F#16, 0x9000#16)
  | .ldI _ => (0xF000#16, 0xA000#16)
  | .jpV0 _ => (0xF000#16, 0xB000#16)
  | .rnd _ _ => (0xF000#16, 0xC000#16)
  | .drw _ _ _ => (0xF000#16, 0xD000#16)
  | .skp _ => (0xF0FF#16, 0xE09E#16)
  | .sknp _ => (0xF0FF#16, 0xE0A1#16)
  | .ldVxDt _ => (0xF0FF#16, 0xF007#16)
  | .ldVxK _ => (0xF0FF#16, 0xF00A#16)
  | .ldDtVx _ => (0xF0FF#16, 0xF015#16)
  | .ldStVx _ => (0xF0FF#16, 0xF018#16)
  | .addI _ => (0xF0FF#16, 0xF01E#16)
  | .ldF _ => (0xF0FF#16, 0xF029#16)
  | .ldB _ => (0xF0FF#16, 0xF033#16)
  | .storeRegs _ => (0xF0FF#16, 0xF055#16)
  | .loadRegs _ => (0xF0FF#16, 0xF065#16)

/-- The opcode of `i` matches its table row. -/
def Statement (i : Instr) : Prop := encode i &&& (row i).1 = (row i).2

theorem encNNN_and (o : Nibble) (nnn : Imm12) : encNNN o nnn &&& 0xF000#16 = encNNN o 0 := by
  refine BitVec.eq_of_getLsbD_eq fun j hj => ?_
  rw [BitVec.getLsbD_and, encNNN_getLsbD, encNNN_getLsbD]
  interval_cases j <;> simp

theorem encXKK_and_o (o : Nibble) (x : RegIdx) (kk : Byte) : encXKK o x kk &&& 0xF000#16 = encNNN o 0 := by
  refine BitVec.eq_of_getLsbD_eq fun j hj => ?_
  rw [BitVec.getLsbD_and, encXKK_getLsbD, encNNN_getLsbD]
  interval_cases j <;> simp

theorem encXKK_and_okk (o : Nibble) (x : RegIdx) (kk : Byte) : encXKK o x kk &&& 0xF0FF#16 = encXKK o 0 kk := by
  refine BitVec.eq_of_getLsbD_eq fun j hj => ?_
  rw [BitVec.getLsbD_and, encXKK_getLsbD, encXKK_getLsbD]
  interval_cases j <;> simp [regField]

theorem encXYN_and_o (o : Nibble) (x y : RegIdx) (n : Nibble) : encXYN o x y n &&& 0xF000#16 = encNNN o 0 := by
  refine BitVec.eq_of_getLsbD_eq fun j hj => ?_
  rw [BitVec.getLsbD_and, encXYN_getLsbD, encNNN_getLsbD]
  interval_cases j <;> simp

theorem encXYN_and_on (o : Nibble) (x y : RegIdx) (n : Nibble) : encXYN o x y n &&& 0xF00F#16 = encXYN o 0 0 n := by
  refine BitVec.eq_of_getLsbD_eq fun j hj => ?_
  rw [BitVec.getLsbD_and, encXYN_getLsbD, encXYN_getLsbD]
  interval_cases j <;> simp [regField]

theorem sys (nnn : Imm12) : Statement (.sys nnn) := (encNNN_and ..).trans rfl
theorem cls : Statement .cls := rfl
theorem ret : Statement .ret := rfl
theorem jp (nnn : Imm12) : Statement (.jp nnn) := (encNNN_and ..).trans rfl
theorem call (nnn : Imm12) : Statement (.call nnn) := (encNNN_and ..).trans rfl
theorem seByte (x : RegIdx) (kk : Byte) : Statement (.seByte x kk) := (encXKK_and_o ..).trans rfl
theorem sneByte (x : RegIdx) (kk : Byte) : Statement (.sneByte x kk) := (encXKK_and_o ..).trans rfl
theorem seReg (x : RegIdx) (y : RegIdx) : Statement (.seReg x y) := (encXYN_and_on ..).trans rfl
theorem ldByte (x : RegIdx) (kk : Byte) : Statement (.ldByte x kk) := (encXKK_and_o ..).trans rfl
theorem addByte (x : RegIdx) (kk : Byte) : Statement (.addByte x kk) := (encXKK_and_o ..).trans rfl
theorem ldReg (x : RegIdx) (y : RegIdx) : Statement (.ldReg x y) := (encXYN_and_on ..).trans rfl
theorem orReg (x : RegIdx) (y : RegIdx) : Statement (.orReg x y) := (encXYN_and_on ..).trans rfl
theorem andReg (x : RegIdx) (y : RegIdx) : Statement (.andReg x y) := (encXYN_and_on ..).trans rfl
theorem xorReg (x : RegIdx) (y : RegIdx) : Statement (.xorReg x y) := (encXYN_and_on ..).trans rfl
theorem addReg (x : RegIdx) (y : RegIdx) : Statement (.addReg x y) := (encXYN_and_on ..).trans rfl
theorem subReg (x : RegIdx) (y : RegIdx) : Statement (.subReg x y) := (encXYN_and_on ..).trans rfl
theorem shr (x : RegIdx) (y : RegIdx) : Statement (.shr x y) := (encXYN_and_on ..).trans rfl
theorem subnReg (x : RegIdx) (y : RegIdx) : Statement (.subnReg x y) := (encXYN_and_on ..).trans rfl
theorem shl (x : RegIdx) (y : RegIdx) : Statement (.shl x y) := (encXYN_and_on ..).trans rfl
theorem sneReg (x : RegIdx) (y : RegIdx) : Statement (.sneReg x y) := (encXYN_and_on ..).trans rfl
theorem ldI (nnn : Imm12) : Statement (.ldI nnn) := (encNNN_and ..).trans rfl
theorem jpV0 (nnn : Imm12) : Statement (.jpV0 nnn) := (encNNN_and ..).trans rfl
theorem rnd (x : RegIdx) (kk : Byte) : Statement (.rnd x kk) := (encXKK_and_o ..).trans rfl
theorem drw (x : RegIdx) (y : RegIdx) (n : Nibble) : Statement (.drw x y n) := (encXYN_and_o ..).trans rfl
theorem skp (x : RegIdx) : Statement (.skp x) := (encXKK_and_okk ..).trans rfl
theorem sknp (x : RegIdx) : Statement (.sknp x) := (encXKK_and_okk ..).trans rfl
theorem ldVxDt (x : RegIdx) : Statement (.ldVxDt x) := (encXKK_and_okk ..).trans rfl
theorem ldVxK (x : RegIdx) : Statement (.ldVxK x) := (encXKK_and_okk ..).trans rfl
theorem ldDtVx (x : RegIdx) : Statement (.ldDtVx x) := (encXKK_and_okk ..).trans rfl
theorem ldStVx (x : RegIdx) : Statement (.ldStVx x) := (encXKK_and_okk ..).trans rfl
theorem addI (x : RegIdx) : Statement (.addI x) := (encXKK_and_okk ..).trans rfl
theorem ldF (x : RegIdx) : Statement (.ldF x) := (encXKK_and_okk ..).trans rfl
theorem ldB (x : RegIdx) : Statement (.ldB x) := (encXKK_and_okk ..).trans rfl
theorem storeRegs (x : RegIdx) : Statement (.storeRegs x) := (encXKK_and_okk ..).trans rfl
theorem loadRegs (x : RegIdx) : Statement (.loadRegs x) := (encXKK_and_okk ..).trans rfl

end Sys2Proof.Laws.TableRow
end

