-- ==== Sys2Proof/Laws/Step.lean ====
section
/-! SUPPORT. What a tick and an execute phase can do: the three ways a tick ends, and the answers of the instructions whose meanings
branch on more than one register. -/

namespace Sys2Proof

/-- The last case of the major opcode, where the fifteen before it are excluded. -/
theorem majorOpcode_last {o : Nibble} (h0 : ¬ o = 0#4) (h1 : ¬ o = 1#4) (h2 : ¬ o = 2#4) (h3 : ¬ o = 3#4) (h4 : ¬ o = 4#4) (h5 : ¬ o = 5#4)
    (h6 : ¬ o = 6#4) (h7 : ¬ o = 7#4) (h8 : ¬ o = 8#4) (h9 : ¬ o = 9#4) (hA : ¬ o = 10#4) (hB : ¬ o = 11#4) (hC : ¬ o = 12#4)
    (hD : ¬ o = 13#4) (hE : ¬ o = 14#4) : o = 15#4 := by
  have := o.isLt
  apply BitVec.eq_of_toNat_eq
  simp only [← BitVec.toNat_inj, BitVec.toNat_ofNat] at *
  omega

/-- The decoder rejects a word only as illegal, and names the word itself (30_encoding.md R48, R50). -/
theorem decode_error {op : Opcode} {r : DecodeReject} (h : decode op = .error r) : r = .illegal op := by
  unfold decode at h
  split at h
  all_goals try simp only [decode0, decode8, decodeE, decodeF] at h
  all_goals try split at h
  all_goals try split at h
  all_goals simp_all

end Sys2Proof

namespace Sys2Proof.Machine

/-- The three ways a tick goes: the fetch faults; the word does not decode; the instruction executes with PC advanced. -/
theorem step_cases (s : State) :
    (∃ f, fetch s = .error f ∧ step s = .next { s with result := .fault f }) ∨
    (∃ op, fetch s = .ok op ∧ decode op = .error (.illegal op) ∧
      step s = .next { s with pc := s.pc + 2, result := .fault (.decodeFault op) }) ∨
    ∃ op i, fetch s = .ok op ∧ decode op = .ok i ∧ step s = exec i { s with pc := s.pc + 2 } := by
  unfold step
  cases hf : fetch s with
  | error f => exact .inl ⟨f, rfl, rfl⟩
  | ok op =>
    cases hd : decode op with
    | error r =>
      obtain rfl := decode_error hd
      exact .inr (.inl ⟨op, rfl, hd, by simp only [hd]; rfl⟩)
    | ok i => exact .inr (.inr ⟨op, i, rfl, hd, by simp only [hd]; rfl⟩)

/-- A fetch answers a word only where both its bytes are in memory. -/
theorem lt_of_fetch_ok {s : State} {op : Opcode} (h : fetch s = .ok op) : s.pc.toNat + 1 < 4096 := by
  by_contra hc
  rw [fetch_of_ge (by omega)] at h
  cases h

/-- A tick over two zero bytes is SYS, a no-op: only PC moves (70_reset_and_hazards.md R125, decision D3). -/
theorem step_zero {s : State} (h : s.pc.toNat + 1 < 4096) (hi : memGet s.mem s.pc.toNat = 0) (lo : memGet s.mem (s.pc.toNat + 1) = 0) :
    step s = .next { s with pc := s.pc + 2, result := .ok } := by
  unfold step
  rw [fetch_of_lt h, hi, lo]
  rfl

/-- How a store of bytes ends a tick: the bytes inside memory written, the first outside on the result port. -/
theorem finish_storeBytes (s : State) (a : Nat) (bs : List Byte) :
    finish (storeBytes s a bs) =
      .next { s with mem := putBytes s.mem a (bs.take (4096 - a)), result := resultOf (rangeFault a bs.length) } :=
  (congrArg finish (storeBytes_eq ..)).trans (finish_eq _)

/-- How a load of registers ends a tick: only registers changed, the first address outside on the result port. -/
theorem finish_loadBytes (s : State) (a : Nat) (rs : List RegIdx) :
    finish (loadBytes s a rs) = .next { s with v := (loadBytes s a rs).1.v, result := resultOf (rangeFault a rs.length) } :=
  (congrArg finish (loadBytes_frame ..)).trans (finish_eq _)

/-- DRW changes the framebuffer and VF and completes, or changes the framebuffer alone and raises MemoryFault. -/
theorem execDrw_cases (x y : RegIdx) (n : Nibble) (s : State) :
    (∃ fb hit, execDrw x y n s = .next { ({ s with fb := fb } : State).setFlag hit with result := .ok }) ∨
      ∃ fb a, 4096 ≤ a ∧ a < 2 ^ 17 ∧ execDrw x y n s = .next { s with fb := fb, result := .fault (.memoryFault a) } := by
  have hn := n.isLt
  have hi := s.i.isLt
  obtain ⟨h1, _, h3, h4⟩ := drawRows_spec (s.getV x).toNat n.toNat s.i.toNat (s.getV y).toNat false s (by omega)
  by_cases h : n.toNat ≤ 4096 - s.i.toNat
  · obtain ⟨hit, h5, _⟩ := h3 h
    refine .inl ⟨(drawRows (s.getV x).toNat n.toNat s.i.toNat (s.getV y).toNat false s).1.fb, hit, ?_⟩
    unfold execDrw
    rw [← Prod.eta (drawRows _ _ _ _ _ _), h5, h1]
    rfl
  · refine .inr ⟨(drawRows (s.getV x).toNat n.toNat s.i.toNat (s.getV y).toNat false s).1.fb, max s.i.toNat 4096, by omega, by omega, ?_⟩
    unfold execDrw
    rw [← Prod.eta (drawRows _ _ _ _ _ _), h4 h, h1]
    rfl

/-- Every execute phase answers a next state. -/
theorem exec_next (i : Instr) (s : State) : ∃ t, exec i s = .next t := by
  cases i
  case call nnn =>
    simp only [exec, execCall]
    rcases push_cases s s.pc with ⟨_, h⟩ | ⟨_, h⟩ <;> rw [h] <;> exact ⟨_, rfl⟩
  case ret =>
    simp only [exec, execRet]
    rcases pop_cases s with ⟨_, h⟩ | ⟨_, _, _, h⟩ <;> rw [h] <;> exact ⟨_, rfl⟩
  case ldVxK x =>
    simp only [exec, execLdVxK]
    split <;> exact ⟨_, rfl⟩
  case drw x y n =>
    simp only [exec]
    rcases execDrw_cases x y n s with ⟨_, _, h⟩ | ⟨_, _, _, _, h⟩ <;> rw [h] <;> exact ⟨_, rfl⟩
  case ldB x => exact ⟨_, finish_eq _⟩
  case storeRegs x => exact ⟨_, finish_eq _⟩
  case loadRegs x => exact ⟨_, finish_eq _⟩
  all_goals exact ⟨_, rfl⟩

end Sys2Proof.Machine
end

