-- ==== Sys2Proof/Tests/Slice0.lean ====
section
/-! SUPPORT. Tests of single steps against the vectors of 95_test_vectors.md, the WellFormed smoke, a decoded word for every
constructor, and a witness for the hypotheses of every statement of Certificates/Slice0/Obligations.lean. -/

namespace Sys2Proof.Tests

open Sys2Proof Sys2Proof.Machine

/-! ## Helpers -/

/-- Reset without the font. -/
def blank : State := State.resetWith false

/-- Some registers set. -/
def regs (l : List (RegIdx × Byte)) (s : State) : State := l.foldl (fun s p => s.setV p.1 p.2) s

/-- Some bytes put at ascending addresses. -/
def bytes (a : Nat) (l : List Byte) (s : State) : State := { s with mem := putBytes s.mem a l }

/-- One key pressed. -/
def pressed (k : Key) (s : State) : State := hostSetKey k true s

/-- The state an outcome goes on with. -/
def nextOf : Host.Outcome State Fault Refusal → Option State
  | .next s => some s
  | .fault _ => none
  | .refused _ => none

/-- One tick of the word `w` placed at PC. -/
def tick (w : Nat) (s : State) : Option State := nextOf (step (s.withFetchWord 16 w))

/-- The bytes at ascending addresses from `a`. -/
def peek (a n : Nat) (s : State) : List Byte := (List.range n).map fun k => memGet s.mem (a + k)

/-- The cells of column `cx` and row `cy` of a framebuffer. -/
def lit (cx : Fin 64) (cy : Fin 32) (s : State) : Bool := s.pixel cx cy

/-! ## WellFormed: the only ill-formed terms are SYS with the address of CLS or RET (30_encoding.md R49 row 1) -/

theorem test_sys_of_cls_word_is_ill_formed : (Instr.sys 0x0E0).wellFormed = false := by decide
theorem test_sys_of_ret_word_is_ill_formed : (Instr.sys 0x0EE).wellFormed = false := by decide
theorem test_other_sys_is_well_formed : (Instr.sys 0x0E1).wellFormed = true ∧ (Instr.sys 0).wellFormed = true := by decide

/-! ## Decoding: one word for every constructor, written out from the patterns of 30_encoding.md R49 -/

theorem test_decode_sys : decode 0x0345#16 = .ok (.sys 0x345) := by decide
theorem test_decode_cls : decode 0x00E0#16 = .ok .cls := by decide
theorem test_decode_ret : decode 0x00EE#16 = .ok .ret := by decide
theorem test_decode_jp : decode 0x1234#16 = .ok (.jp 0x234) := by decide
theorem test_decode_call : decode 0x2FFF#16 = .ok (.call 0xFFF) := by decide
theorem test_decode_seByte : decode 0x3006#16 = .ok (.seByte 0 0x06) := by decide
theorem test_decode_sneByte : decode 0x4211#16 = .ok (.sneByte 2 0x11) := by decide
theorem test_decode_seReg : decode 0x5120#16 = .ok (.seReg 1 2) := by decide
theorem test_decode_ldByte : decode 0x6FAB#16 = .ok (.ldByte 15 0xAB) := by decide
theorem test_decode_addByte : decode 0x71FF#16 = .ok (.addByte 1 0xFF) := by decide
theorem test_decode_ldReg : decode 0x8210#16 = .ok (.ldReg 2 1) := by decide
theorem test_decode_orReg : decode 0x8311#16 = .ok (.orReg 3 1) := by decide
theorem test_decode_andReg : decode 0x8AB2#16 = .ok (.andReg 10 11) := by decide
theorem test_decode_xorReg : decode 0x80F3#16 = .ok (.xorReg 0 15) := by decide
theorem test_decode_addReg : decode 0x81F4#16 = .ok (.addReg 1 15) := by decide
theorem test_decode_subReg : decode 0x8F15#16 = .ok (.subReg 15 1) := by decide
theorem test_decode_shr : decode 0x8056#16 = .ok (.shr 0 5) := by decide
theorem test_decode_subnReg : decode 0x8127#16 = .ok (.subnReg 1 2) := by decide
theorem test_decode_shl : decode 0x8F0E#16 = .ok (.shl 15 0) := by decide
theorem test_decode_sneReg : decode 0x9AB0#16 = .ok (.sneReg 10 11) := by decide
theorem test_decode_ldI : decode 0xA2F0#16 = .ok (.ldI 0x2F0) := by decide
theorem test_decode_jpV0 : decode 0xB123#16 = .ok (.jpV0 0x123) := by decide
theorem test_decode_rnd : decode 0xC30F#16 = .ok (.rnd 3 0x0F) := by decide
theorem test_decode_drw : decode 0xD125#16 = .ok (.drw 1 2 5) := by decide
theorem test_decode_skp : decode 0xE19E#16 = .ok (.skp 1) := by decide
theorem test_decode_sknp : decode 0xE1A1#16 = .ok (.sknp 1) := by decide
theorem test_decode_ldVxDt : decode 0xF307#16 = .ok (.ldVxDt 3) := by decide
theorem test_decode_ldVxK : decode 0xFF0A#16 = .ok (.ldVxK 15) := by decide
theorem test_decode_ldDtVx : decode 0xF515#16 = .ok (.ldDtVx 5) := by decide
theorem test_decode_ldStVx : decode 0xF218#16 = .ok (.ldStVx 2) := by decide
theorem test_decode_addI : decode 0xFA1E#16 = .ok (.addI 10) := by decide
theorem test_decode_ldF : decode 0xF129#16 = .ok (.ldF 1) := by decide
theorem test_decode_ldB : decode 0xF533#16 = .ok (.ldB 5) := by decide
theorem test_decode_storeRegs : decode 0xF255#16 = .ok (.storeRegs 2) := by decide
theorem test_decode_loadRegs : decode 0xF365#16 = .ok (.loadRegs 3) := by decide

/-- The illegal words of vector table 2.1. -/
theorem test_decode_illegal :
    decode 0x5121#16 = .error (.illegal 0x5121#16) ∧ decode 0x8008#16 = .error (.illegal 0x8008#16) ∧
    decode 0x800F#16 = .error (.illegal 0x800F#16) ∧ decode 0x9AB1#16 = .error (.illegal 0x9AB1#16) ∧
    decode 0xE09F#16 = .error (.illegal 0xE09F#16) ∧ decode 0xF000#16 = .error (.illegal 0xF000#16) ∧
    decode 0xF030#16 = .error (.illegal 0xF030#16) ∧ decode 0xF075#16 = .error (.illegal 0xF075#16) ∧
    decode 0xFFFF#16 = .error (.illegal 0xFFFF#16) := by decide

/-- The table's bit numbering: bit 0 is the least significant bit of the word, and the high byte lies lower in memory (20_memory.md R36). -/
theorem test_table_word : decodeTableWord 16 0x6102 = some (.ldByte 1 2) ∧ bytesOfOpcode 0x6102#16 = [0x61, 0x02] := by decide

/-! ## Register loads and the ALU (vector table 2.2) -/

theorem test_ldByte : (tick 0x6FAB blank).map (·.getV 15) = some 0xAB := by decide
theorem test_addByte_wraps_without_flag :
    (tick 0x70FF (regs [(0, 0x01), (15, 0x09)] blank)).map (fun t => (t.getV 0, t.getV 15)) = some (0x00, 0x09) := by decide
theorem test_addByte_of_vf : (tick 0x7F01 (regs [(15, 0xFF)] blank)).map (·.getV 15) = some 0x00 := by decide
theorem test_ldReg : (tick 0x8F00 (regs [(0, 0x33), (15, 0x01)] blank)).map (·.getV 15) = some 0x33 := by decide
theorem test_orReg :
    (tick 0x8011 (regs [(0, 0xF0), (1, 0x0F), (15, 0x05)] blank)).map (fun t => (t.getV 0, t.getV 15)) = some (0xFF, 0x05) := by decide
theorem test_andReg :
    (tick 0x8012 (regs [(0, 0xF0), (1, 0x0F)] blank)).map (fun t => (t.getV 0, t.getV 15)) = some (0x00, 0x00) := by decide
theorem test_xorReg : (tick 0x8013 (regs [(0, 0xFF), (1, 0x0F)] blank)).map (fun t => (t.getV 0, t.getV 15)) = some (0xF0, 0x00) := by
  decide
theorem test_addReg_carry : (tick 0x8014 (regs [(0, 0xFF), (1, 0xFF)] blank)).map (fun t => (t.getV 0, t.getV 15)) = some (0xFE, 1) := by
  decide
theorem test_addReg_flag_overwrites_sum : (tick 0x8F14 (regs [(15, 0x10), (1, 0xF5)] blank)).map (·.getV 15) = some 1 := by decide
theorem test_subReg_borrow : (tick 0x8015 (regs [(0, 0x01), (1, 0x02)] blank)).map (fun t => (t.getV 0, t.getV 15)) = some (0xFF, 0) := by
  decide
theorem test_subReg_equal : (tick 0x8015 (regs [(0, 0x05), (1, 0x05)] blank)).map (fun t => (t.getV 0, t.getV 15)) = some (0x00, 1) := by
  decide
theorem test_subnReg_borrow : (tick 0x8017 (regs [(0, 0x02), (1, 0x01)] blank)).map (fun t => (t.getV 0, t.getV 15)) = some (0xFF, 0) := by
  decide
theorem test_subnReg_into_vf : (tick 0x8F17 (regs [(15, 0x05), (1, 0x03)] blank)).map (·.getV 15) = some 0 := by decide
theorem test_shr_ignores_vy : (tick 0x8056 (regs [(0, 0x04), (5, 0x03)] blank)).map (fun t => (t.getV 0, t.getV 15)) = some (0x02, 0) := by
  decide
theorem test_shr_of_vf : (tick 0x8F06 (regs [(15, 0x03)] blank)).map (·.getV 15) = some 1 := by decide
theorem test_shl : (tick 0x800E (regs [(0, 0xA5)] blank)).map (fun t => (t.getV 0, t.getV 15)) = some (0x4A, 1) := by decide
theorem test_shl_of_vf : (tick 0x8F0E (regs [(15, 0x81)] blank)).map (·.getV 15) = some 1 := by decide
theorem test_rnd_masks : (nextOf (rndWith 0xA7 3 0x0F blank)).map (·.getV 3) = some 0x07 := by decide

/-! ## Control flow and skips (vector table 2.3) -/

theorem test_sys : (tick 0x0345 blank).map (fun t => (t.pc, t.result)) = some (0x202, .ok) := by decide
theorem test_jp_odd : (tick 0x1301 blank).map (·.pc) = some 0x301 := by decide
theorem test_call : (tick 0x2300 { blank with sp := 15 }).map (fun t => (t.stack[15], t.sp, t.pc)) = some (0x202, 16, 0x300) := by decide
theorem test_call_overflow :
    (tick 0x2300 { blank with sp := 16 }).map (fun t => (t.pc, t.sp, t.result)) = some (0x202, 16, .fault .stackOverflow) := by decide
theorem test_ret :
    (tick 0x00EE { blank with pc := 0x300, sp := 1, stack := blank.stack.set 0 0x202 }).map (fun t => (t.pc, t.sp, t.stack[0])) =
      some (0x202, 0, 0x202) := by decide
theorem test_ret_underflow :
    (tick 0x00EE { blank with pc := 0x300 }).map (fun t => (t.pc, t.sp, t.result)) = some (0x302, 0, .fault .stackUnderflow) := by decide
theorem test_jpV0_leaves_memory : (tick 0xBFFF { regs [(0, 0xFF)] blank with pc := 0x300 }).map (·.pc) = some 0x10FE := by decide
theorem test_jpV0_reads_v0 : (tick 0xBA00 (regs [(0, 0x02), (10, 0x50)] blank)).map (·.pc) = some 0xA02 := by decide
theorem test_seByte_taken : (tick 0x3000 { blank with pc := 0xFFC }).map (·.pc) = some 0x1000 := by decide
theorem test_seByte_not_taken : (tick 0x3006 { regs [(0, 0x07)] blank with pc := 0x20E }).map (·.pc) = some 0x210 := by decide
theorem test_sneByte_taken : (tick 0x4211 { regs [(2, 0x10)] blank with pc := 0x202 }).map (·.pc) = some 0x206 := by decide
theorem test_sneByte_not_taken : (tick 0x4210 { regs [(2, 0x10)] blank with pc := 0x202 }).map (·.pc) = some 0x204 := by decide
theorem test_seReg : (tick 0x5120 { regs [(1, 0x33), (2, 0x33)] blank with pc := 0x202 }).map (·.pc) = some 0x206 := by decide
theorem test_sneReg_taken : (tick 0x9120 { regs [(1, 0x01), (2, 0x02)] blank with pc := 0x202 }).map (·.pc) = some 0x206 := by decide
theorem test_sneReg_same : (tick 0x9110 { regs [(1, 0x01)] blank with pc := 0x202 }).map (·.pc) = some 0x204 := by decide

/-! ## Timers and keys (vector tables 2.4, 2.5) -/

theorem test_ldDtVx : (tick 0xF515 (regs [(5, 0x3C)] blank)).map (·.dt) = some 0x3C := by decide
theorem test_ldVxDt : (tick 0xF307 { blank with dt := 0x3C }).map (fun t => (t.getV 3, t.dt)) = some (0x3C, 0x3C) := by decide
theorem test_ldStVx : (tick 0xF218 (regs [(2, 0x02)] blank)).map (fun t => (t.st, t.sound)) = some (0x02, true) := by decide
theorem test_frame_tick : (hostFrameTick { blank with dt := 2, st := 1 }).dt = 1 ∧ (hostFrameTick { blank with dt := 2, st := 1 }).st = 0 ∧
    (hostFrameTick blank).dt = 0 := by decide
theorem test_skp_low_nibble : (tick 0xE19E { regs [(1, 0x16)] (pressed 6 blank) with pc := 0x202 }).map (·.pc) = some 0x206 := by decide
theorem test_skp_up : (tick 0xE19E { regs [(1, 0x05)] blank with pc := 0x202 }).map (·.pc) = some 0x204 := by decide
theorem test_sknp_up : (tick 0xE1A1 { regs [(1, 0x05)] blank with pc := 0x202 }).map (·.pc) = some 0x206 := by decide
theorem test_sknp_down : (tick 0xE1A1 { regs [(1, 0x05)] (pressed 5 blank) with pc := 0x202 }).map (·.pc) = some 0x204 := by decide
theorem test_ldVxK_lowest :
    (tick 0xF00A { pressed 3 (pressed 10 blank) with pc := 0x20A }).map (fun t => (t.getV 0, t.pc)) = some (0x03, 0x20C) := by decide
theorem test_ldVxK_waits : (tick 0xF00A { blank with pc := 0x000 }).map (fun t => (t.getV 0, t.pc)) = some (0x00, 0x000) := by decide

/-! ## Framebuffer (vector table 2.6) -/

theorem test_cls :
    (nextOf (exec .cls (regs [(15, 0x07)] { blank with fb := Vector.replicate 2048 true }))).map (fun t => (lit 0 0 t, lit 63 31 t, t.getV 15)) =
      some (false, false, 0x07) := by decide +kernel
/-- A row 81 drawn at column 62, row 40: its two set bits are at columns 62 and 69 mod 64 = 5 of row 40 mod 32 = 8 (R92). -/
theorem test_drw_wraps :
    (nextOf (exec (.drw 0 1 1) (bytes 0x20E [0x81] { regs [(0, 62), (1, 40)] blank with i := 0x20E }))).map
      (fun t => ((lit 62 8 t, lit 63 8 t, lit 5 8 t), t.getV 15)) = some ((true, false, true), 0) := by decide +kernel
/-- `D003` whose third row is outside memory: the first two are painted, VF keeps 7. -/
theorem test_drw_fault :
    (nextOf (exec (.drw 0 0 3) (bytes 0xFFE [0x80, 0xC0] { regs [(15, 0x07)] blank with i := 0xFFE }))).map
      (fun t => ((lit 0 0 t, lit 0 1 t, lit 1 1 t), t.getV 15, t.result)) =
      some ((true, true, true), 0x07, .fault (.memoryFault 0x1000)) := by decide +kernel

/-! ## Index register and memory (vector table 2.7) -/

theorem test_ldI : (tick 0xA2F0 blank).map (·.i) = some 0x2F0 := by decide
theorem test_addI_wraps : (tick 0xF01E { regs [(0, 1)] blank with i := 0xFFFF }).map (·.i) = some 0x0000 := by decide
theorem test_addI_no_flag :
    (tick 0xF01E { regs [(0, 1)] blank with i := 0x0FFF }).map (fun t => (t.i, t.getV 15)) = some (0x1000, 0) := by decide
theorem test_ldF : (tick 0xF129 (regs [(1, 0x13)] blank)).map (·.i) = some 0x00F := by decide
theorem test_ldB :
    (tick 0xF533 { regs [(5, 0x9C)] blank with i := 0x300 }).map (fun t => (peek 0x300 3 t, t.i)) = some ([1, 5, 6], 0x300) := by decide
theorem test_ldB_fault : (tick 0xF433 { regs [(4, 0xFF)] blank with pc := 0x300, i := 0xFFE }).map
      (fun t => (peek 0xFFE 2 t, t.pc, t.result)) = some ([2, 5], 0x302, .fault (.memoryFault 0x1000)) := by decide
theorem test_storeRegs : (tick 0xF255 { regs [(0, 0x11), (1, 0x22), (2, 0x33), (3, 0x44)] blank with i := 0x300 }).map
      (fun t => (peek 0x300 4 t, t.i)) = some ([0x11, 0x22, 0x33, 0x00], 0x300) := by decide
theorem test_storeRegs_fault :
    (tick 0xF555 { regs [(0, 1), (1, 2), (2, 3), (3, 4), (4, 5), (5, 6)] blank with pc := 0x300, i := 0xFFD }).map
      (fun t => (peek 0xFFD 3 t, t.i, t.pc, t.result)) = some ([1, 2, 3], 0xFFD, 0x302, .fault (.memoryFault 0x1000)) := by decide
theorem test_loadRegs : (tick 0xF265 (bytes 0x300 [1, 5, 6, 7] { blank with i := 0x300 })).map
      (fun t => (t.getV 0, t.getV 1, t.getV 2, t.getV 3, t.i)) = some (1, 5, 6, 0, 0x300) := by decide
theorem test_loadRegs_fault :
    (tick 0xF265 (bytes 0xFFE [9, 8] { regs [(0, 0xAA), (1, 0xAA), (2, 0xAA)] blank with pc := 0x300, i := 0xFFE })).map
      (fun t => (t.getV 0, t.getV 1, t.getV 2, t.result)) = some (9, 8, 0xAA, .fault (.memoryFault 0x1000)) := by decide

/-! ## Fetch and faults (vector table 2.8) -/

theorem test_fetch_runs_off : (nextOf (step { blank with pc := 0xFFF })).map (fun t => (t.pc, t.result)) =
    some (0xFFF, .fault (.memoryFault 0x1000)) := by decide
theorem test_fetch_high : (nextOf (step { blank with pc := 0xFFFE })).map (fun t => (t.pc, t.result)) =
    some (0xFFFE, .fault (.memoryFault 0xFFFE)) := by decide
theorem test_last_word : (nextOf (step (bytes 0xFFE [0x60, 0x01] { blank with pc := 0xFFE }))).map (fun t => (t.pc, t.getV 0, t.result)) =
    some (0x1000, 0x01, .ok) := by decide
theorem test_decode_fault : (tick 0xFFFF blank).map (fun t => (t.pc, t.result)) = some (0x202, .fault (.decodeFault 0xFFFF)) := by decide
theorem test_status_codes : [TickResult.ok, .fault (.memoryFault 4096), .fault .stackOverflow, .fault .stackUnderflow,
    .fault (.decodeFault 0)].map TickResult.code = [0, 1, 2, 3, 4] := by decide

/-! ## Witnesses: for every statement with hypotheses, a concrete state and operands that meet them, for each of its clauses -/

/-- The last word of memory holds `61 07`, LD V1, 0x07. -/
def lastWord : State := bytes 0xFFE [0x61, 0x07] { blank with pc := 0xFFE }

theorem witness_StepRunsTheDecodedInstruction : lastWord.pc.toNat + 1 < 4096 ∧
    decode (opcodeOfBytes (memGet lastWord.mem lastWord.pc.toNat) (memGet lastWord.mem (lastWord.pc.toNat + 1))) = .ok (.ldByte 1 7) := by
  decide

theorem witness_FetchReadsBigEndianAtPc :
    4096 ≤ ({ blank with pc := 0x1000 } : State).pc.toNat ∧ ({ blank with pc := 0xFFF } : State).pc.toNat = 4095 ∧
      lastWord.pc.toNat + 1 < 4096 ∧ lastWord.pc.toNat = 4094 := by decide

theorem witness_FaultsBeforeExecute :
    fetch { blank with pc := 0xFFF } = .error (.memoryFault 0x1000) ∧ fetch { blank with pc := 0x1000 } = .error (.memoryFault 0x1000) ∧
    fetch (blank.withFetchWord 16 0xFFFF) = .ok 0xFFFF#16 ∧ ∀ i, decode 0xFFFF#16 ≠ .ok i :=
  ⟨by decide, by decide, by decide, fun i h => by
    rw [show decode 0xFFFF#16 = .error (.illegal 0xFFFF#16) by decide] at h
    cases h⟩

theorem witness_EachFaultHasItsCause :
    (∃ t, step blank = .next t ∧ t.result = .ok) ∧
    (∃ t, step { blank with pc := 0xFFF } = .next t ∧ t.result = .fault (.memoryFault 0x1000)) ∧
    (∃ t, step (({ blank with i := 0x1000 } : State).withFetchWord 16 0xF133) = .next t ∧ t.result = .fault (.memoryFault 0x1000)) ∧
    (∃ t, step (({ blank with sp := 16 } : State).withFetchWord 16 0x2300) = .next t ∧ t.result = .fault .stackOverflow) ∧
    (∃ t, step (blank.withFetchWord 16 0x00EE) = .next t ∧ t.result = .fault .stackUnderflow) ∧
    ∃ t, step (blank.withFetchWord 16 0xFFFF) = .next t ∧ t.result = .fault (.decodeFault 0xFFFF) :=
  ⟨⟨_, rfl, rfl⟩, ⟨_, rfl, rfl⟩, ⟨_, rfl, rfl⟩, ⟨_, rfl, rfl⟩, ⟨_, rfl, rfl⟩, ⟨_, rfl, rfl⟩⟩

/-- A fetch fault; a stack fault, which is no memory fault; a memory fault of the execute phase. -/
theorem witness_StateAfterEachFault :
    (∃ t, step { blank with pc := 0xFFF } = .next t ∧ t.result = .fault (.memoryFault 0x1000) ∧
      fetch { blank with pc := 0xFFF } = .error (.memoryFault 0x1000)) ∧
    (∃ t, step (blank.withFetchWord 16 0x00EE) = .next t ∧ t.result = .fault .stackUnderflow ∧
      (∃ op, fetch (blank.withFetchWord 16 0x00EE) = .ok op) ∧ ∀ a, Fault.stackUnderflow ≠ .memoryFault a) ∧
    ∃ t, step (({ blank with i := 0xFFE } : State).withFetchWord 16 0xF133) = .next t ∧ t.result = .fault (.memoryFault 0x1000) ∧
      ∃ op, fetch (({ blank with i := 0xFFE } : State).withFetchWord 16 0xF133) = .ok op :=
  ⟨⟨_, rfl, rfl, by decide⟩, ⟨_, rfl, rfl, ⟨_, rfl⟩, fun _ h => by cases h⟩, ⟨_, rfl, rfl, ⟨_, rfl⟩⟩⟩

theorem witness_SoundTimerIsNeverRead : ∃ t, step { blank with st := 9 } = .next t ∧ t.st = 9 := ⟨_, rfl, rfl⟩

theorem witness_DecodeOfEncodeIsTheInstruction :
    (Instr.sys 0x0EF).wellFormed = true ∧ (Instr.drw 15 0 15).wellFormed = true ∧ Instr.ret.wellFormed = true := by decide

theorem witness_EncodeOfDecodeIsTheWord : decode 0x8056#16 = .ok (.shr 0 5) ∧ encode (.shr 0 5) = 0x8056#16 := by decide

/-- For each clause of "illegal" a word it holds of, and one beside it that decodes. -/
theorem witness_IllegalWordsAreExactlyThese :
    ((0x5121#16).toNat / 4096 = 5 ∧ (0x5121#16).toNat % 16 ≠ 0) ∧ ((0x9AB1#16).toNat / 4096 = 9 ∧ (0x9AB1#16).toNat % 16 ≠ 0) ∧
    ((0x800F#16).toNat / 4096 = 8 ∧ (0x800F#16).toNat % 16 ∈ [8, 9, 0xA, 0xB, 0xC, 0xD, 0xF]) ∧
    ((0xE09F#16).toNat / 4096 = 14 ∧ (0xE09F#16).toNat % 256 ∉ [0x9E, 0xA1]) ∧
    ((0xF000#16).toNat / 4096 = 15 ∧ (0xF000#16).toNat % 256 ∉ [0x07, 0x0A, 0x15, 0x18, 0x1E, 0x29, 0x33, 0x55, 0x65]) ∧
    ((0x800E#16).toNat / 4096 = 8 ∧ (0x800E#16).toNat % 16 ∉ [8, 9, 0xA, 0xB, 0xC, 0xD, 0xF]) := by decide

theorem witness_PlacedInstructionRuns : (Instr.jp 0x234).wellFormed = true ∧ State.reset.pc.toNat + 1 < 4096 ∧
    lastWord.pc.toNat + 1 = 4095 := by decide

theorem witness_ReadAfterWrite :
    4096 ≤ 4096 ∧ memRead blank 4096 = .error (.memoryFault 4096) ∧ 4095 < 4096 ∧ memRead blank 4095 = .ok 0 ∧ (4094 : Nat) ≠ 4095 := by
  decide

theorem witness_FetchSeesEarlierStores : ∃ t u, memWrite lastWord lastWord.pc.toNat 0x12 = .ok t ∧
    memWrite t (lastWord.pc.toNat + 1) 0x34 = .ok u ∧ fetch u = .ok 0x1234#16 := ⟨_, _, rfl, rfl, by decide⟩

/-- The invariant holds at reset, and at the highest PC that it allows, which `JP V0, 0xFFF` reaches. -/
theorem witness_TickKeepsTheInvariant :
    State.reset.Inv ∧ (∃ t, step State.reset = .next t) ∧ ({ blank with pc := 0x10FE, stack := Vector.replicate 16 0x1000 } : State).Inv ∧
      ∃ t, step { blank with pc := 0x10FE } = .next t ∧ t.result = .fault (.memoryFault 0x10FE) :=
  ⟨by decide, ⟨_, rfl⟩, by decide, ⟨_, rfl, rfl⟩⟩

theorem witness_HostCommandsKeepTheInvariant :
    State.reset.Inv ∧ (∃ t, command (.load [0x61, 0x07]) State.reset = .next (t, .ok)) ∧
      ∃ t, runCommands [.load [0x61, 0x07], .tick] State.reset = .next t ∧ t.getV 1 = 7 :=
  ⟨by decide, ⟨_, rfl⟩, ⟨_, rfl, rfl⟩⟩

theorem witness_TicksWithoutAProgram : 0 ≤ 1792 ∧ 1792 ≤ 1792 ∧ ∃ t, runCommands (List.replicate 2 .tick) State.reset = .next t ∧
    t.pc = 0x204 := ⟨by decide, by decide, _, rfl, rfl⟩

theorem witness_EndedProgramStaysEnded : (bytes 0x200 [0x12, 0x00] blank).Ended := ⟨0x200, by decide, by decide⟩

theorem witness_LoadCopiesOrRefuses :
    (List.replicate 3584 (1 : Byte)).length ≤ 3584 ∧ 3584 < (List.replicate 3585 (1 : Byte)).length ∧
    (3583 < (List.replicate 3584 (1 : Byte)).length) ∧ (0x1FF < 0x200 ∨ 0x200 + (List.replicate 3584 (1 : Byte)).length ≤ 0x1FF) ∧
    (0x1000 < 0x200 ∨ 0x200 + (List.replicate 3584 (1 : Byte)).length ≤ 0x1000) := by
  simp only [List.length_replicate]; decide

theorem witness_OnlyTickReturnsFaults :
    ∃ t, command .tick { blank with pc := 0xFFF } = .next (t, .fault (.memoryFault 0x1000)) := ⟨_, rfl⟩

theorem witness_OutputsAreDerived : 0 = (0 : Fin 64).val + 64 * (0 : Fin 32).val ∧ 2047 = (63 : Fin 64).val + 64 * (31 : Fin 32).val ∧
    2047 < 2048 := by decide

theorem witness_RegistersChangeOnlyAsDestinations :
    (∃ t, exec (.addReg 0 1) blank = .next t) ∧ (Instr.addReg 0 1).writesReg 2 = false ∧ (Instr.addReg 0 1).writesReg 15 = true ∧
    (∃ t, exec (.loadRegs 3) blank = .next t) ∧ (Instr.loadRegs 3).writesReg 4 = false ∧ (Instr.loadRegs 3).writesReg 3 = true :=
  ⟨⟨_, rfl⟩, by decide, by decide, ⟨_, rfl⟩, by decide, by decide⟩

/-- For LD B at I = 0x300 the address below, the first above, and one outside memory; for CLS an address of its own. -/
theorem witness_MemoryChangesOnlyWhereStored :
    (∃ t, exec (.ldB 5) { regs [(5, 0x9C)] blank with i := 0x300 } = .next t) ∧ 0x2FF < 0x300 ∧
    0x300 + (Instr.ldB 5).bytesStored ≤ 0x303 ∧ 4096 ≤ 4096 ∧
    (∃ t, exec .cls { blank with i := 0x300 } = .next t) ∧ 0x300 + Instr.cls.bytesStored ≤ 0x300 :=
  ⟨⟨_, rfl⟩, by decide, by decide, by decide, ⟨_, rfl⟩, by decide⟩

theorem witness_PcChangesOnlyByControlTransfer :
    (∃ t, exec (.jp 0x300) blank = .next t) ∧ (∃ t, exec (.seByte 0 0) blank = .next t ∧ t.pc = 0x202) ∧
    (∃ t, exec (.seByte 0 1) blank = .next t ∧ t.pc = 0x200) ∧ (∃ t, exec (.ldVxK 0) blank = .next t ∧ t.pc = 0x1FE) ∧
    ∃ t, exec (.ldI 0) blank = .next t ∧ t.pc = 0x200 :=
  ⟨⟨_, rfl⟩, ⟨_, rfl, rfl⟩, ⟨_, rfl, rfl⟩, ⟨_, rfl, rfl⟩, ⟨_, rfl, rfl⟩⟩

theorem witness_SpecialStateChangesOnlyByItsInstructions :
    (∃ t, exec (.call 0x300) blank = .next t ∧ t.stack[0] = 0x200) ∧ (1 : Fin 16).val ≠ blank.sp.val ∧
    (∃ t, exec (.ldByte 0 1) blank = .next t) ∧ (∀ nnn, Instr.ldByte 0 1 ≠ .ldI nnn) ∧ (∀ x, Instr.ldByte 0 1 ≠ .addI x) ∧
    (∀ x, Instr.ldByte 0 1 ≠ .ldF x) ∧ (∀ nnn, Instr.ldByte 0 1 ≠ .call nnn) ∧ Instr.ldByte 0 1 ≠ .ret ∧
    (∀ x, Instr.ldByte 0 1 ≠ .ldDtVx x) ∧ (∀ x, Instr.ldByte 0 1 ≠ .ldStVx x) ∧ Instr.ldByte 0 1 ≠ .cls ∧
    ∀ x y n, Instr.ldByte 0 1 ≠ .drw x y n := by
  refine ⟨⟨_, rfl, rfl⟩, by decide, ⟨_, rfl⟩, ?_, ?_, ?_, ?_, ?_, ?_, ?_, ?_, ?_⟩ <;> intros <;> simp

theorem witness_CallPushesTheReturnAddress :
    blank.sp.val < 16 ∧ ({ blank with sp := 15 } : State).sp.val < 16 ∧ ({ blank with sp := 16 } : State).sp.val = 16 := by decide

theorem witness_RetPopsTheReturnAddress :
    ({ blank with sp := 1 } : State).sp.val = (0 : Fin 16).val + 1 ∧ ({ blank with sp := 16 } : State).sp.val = (15 : Fin 16).val + 1 ∧
      blank.sp.val = 0 := by decide

theorem witness_RetAfterCallRestoresPc : blank.sp.val < 16 ∧ ({ blank with sp := 15 } : State).sp.val < 16 := by decide

theorem witness_KeySkipsTestTheLowNibble :
    (6 : Key).val = ((regs [(1, 0x16)] blank).getV 1).toNat % 16 ∧ (15 : Key).val = ((regs [(1, 0xFF)] blank).getV 1).toNat % 16 := by decide

theorem witness_WaitForKeyTakesTheLowestKey :
    ((pressed 3 (pressed 10 blank)).keyDown 3 = true ∧ ∀ j : Key, j < 3 → (pressed 3 (pressed 10 blank)).keyDown j = false) ∧
    ((pressed 0 blank).keyDown 0 = true ∧ ∀ j : Key, j < 0 → (pressed 0 blank).keyDown j = false) ∧
    ∀ k : Key, blank.keyDown k = false := by decide

/-- Column 64, row 32 is cell 0 (vector W8); cell 1 is another; the last cell is column 63, row 31. -/
theorem witness_PaintTogglesOneCell : 0 = 64 % 64 + 64 * (32 % 32) ∧ 1 ≠ 64 % 64 + 64 * (32 % 32) ∧ 2047 = 63 % 64 + 64 * (31 % 32) ∧
    2047 < 2048 := by decide

/-- One row, byte 80, at the last address of memory. -/
def oneDot : State := bytes 0xFFF [0x80] { blank with i := 0xFFF }

/-- `oneDot` with the cell it covers lit. -/
def oneDotLit : State := { oneDot with fb := oneDot.fb.set 0 true }

theorem oneDot_covers (c : Nat) : SpriteCovers oneDot.mem oneDot.i.toNat (oneDot.getV 0).toNat (oneDot.getV 1).toNat 1 c ↔ c = 0 := by
  constructor
  · rintro ⟨r, hr, k, hk, hb, rfl⟩
    obtain rfl : r = 0 := by omega
    have : ∀ k : Fin 8, (memGet oneDot.mem (oneDot.i.toNat + 0)).getLsbD (7 - k.val) = true → k = 0 := by decide
    have h0 := congrArg Fin.val (this ⟨k, hk⟩ hb)
    simp only at h0
    subst h0
    decide
  · rintro rfl
    exact ⟨0, by decide, 0, by decide, by decide, by decide⟩

/-- No rows with I far outside memory; one row at the last address; a cell covered and one not; a collision and none. -/
theorem witness_DrawTogglesTheCoveredCells :
    ((0 : Nibble).toNat = 0 ∨ ({ blank with i := 0xFFFF } : State).i.toNat + (0 : Nibble).toNat ≤ 4096) ∧
    ((1 : Nibble).toNat = 0 ∨ oneDot.i.toNat + (1 : Nibble).toNat ≤ 4096) ∧
    SpriteCovers oneDot.mem oneDot.i.toNat (oneDot.getV 0).toNat (oneDot.getV 1).toNat (1 : Nibble).toNat 0 ∧
    ¬ SpriteCovers oneDot.mem oneDot.i.toNat (oneDot.getV 0).toNat (oneDot.getV 1).toNat (1 : Nibble).toNat 1 ∧
    (∃ c, ∃ hc : c < 2048, SpriteCovers oneDotLit.mem oneDotLit.i.toNat (oneDotLit.getV 0).toNat (oneDotLit.getV 1).toNat (1 : Nibble).toNat c ∧
      oneDotLit.fb[c] = true) ∧
    ¬ ∃ c, ∃ hc : c < 2048, SpriteCovers oneDot.mem oneDot.i.toNat (oneDot.getV 0).toNat (oneDot.getV 1).toNat (1 : Nibble).toNat c ∧
      oneDot.fb[c] = true := by
  refine ⟨by decide, by decide, (oneDot_covers 0).2 rfl, fun h => absurd ((oneDot_covers 1).1 h) (by decide),
    ⟨0, by decide, (oneDot_covers 0).2 rfl, by simp [oneDotLit]⟩, ?_⟩
  rintro ⟨c, hc, _, h⟩
  simp [oneDot, bytes, blank, State.resetWith] at h

/-- The first row outside memory, and the third of three. -/
theorem witness_DrawFaultPaintsTheRowsBefore :
    (0 < (1 : Nibble).toNat ∧ 4096 ≤ ({ blank with i := 0x1000 } : State).i.toNat + 0 ∧
      ∀ j, j < 0 → ({ blank with i := 0x1000 } : State).i.toNat + j < 4096) ∧
    (2 < (3 : Nibble).toNat ∧ 4096 ≤ ({ blank with i := 0xFFE } : State).i.toNat + 2 ∧
      ∀ j, j < 2 → ({ blank with i := 0xFFE } : State).i.toNat + j < 4096) :=
  ⟨⟨by decide, by decide, fun _ h => absurd h (by omega)⟩, ⟨by decide, by decide, by decide⟩⟩

theorem witness_DrawingTwiceRestoresTheScreen : (0 : RegIdx) ≠ 15 ∧ (1 : RegIdx) ≠ 15 ∧
    ((1 : Nibble).toNat = 0 ∨ oneDot.i.toNat + (1 : Nibble).toNat ≤ 4096) ∧
    ∃ c, ∃ hc : c < 2048, SpriteCovers oneDot.mem oneDot.i.toNat (oneDot.getV 0).toNat (oneDot.getV 1).toNat (1 : Nibble).toNat c ∧
      oneDot.fb[c] = false :=
  ⟨by decide, by decide, by decide, ⟨0, by decide, (oneDot_covers 0).2 rfl, by simp [oneDot, bytes, blank, State.resetWith]⟩⟩

/-- All three digits in memory at the highest I; the last one outside; the first one outside. -/
theorem witness_StoreDecimalDigits :
    (({ blank with i := 0xFFD } : State).i.toNat + 2 < 4096 ∧ ({ blank with i := 0xFFD } : State).i.toNat + 3 ≤ 4096) ∧
    (2 < 3 ∧ 4096 ≤ ({ blank with i := 0xFFE } : State).i.toNat + 2 ∧ ∀ j, j < 2 → ({ blank with i := 0xFFE } : State).i.toNat + j < 4096) ∧
    (0 < 3 ∧ 4096 ≤ ({ blank with i := 0x1000 } : State).i.toNat + 0 ∧
      ∀ j, j < 0 → ({ blank with i := 0x1000 } : State).i.toNat + j < 4096) :=
  ⟨by decide, by decide, ⟨by decide, by decide, fun _ h => absurd h (by omega)⟩⟩

/-- V0..V5 to 0xFFD: V2 is the last inside memory and V3 the first outside; V0..V2 to 0xFFD are all inside. -/
theorem witness_StoreRegisterBlock :
    ((2 : RegIdx) ≤ 5 ∧ ({ blank with i := 0xFFD } : State).i.toNat + (2 : RegIdx).val < 4096) ∧
    (3 ≤ (5 : RegIdx).val ∧ 4096 ≤ ({ blank with i := 0xFFD } : State).i.toNat + 3 ∧
      ∀ j, j < 3 → ({ blank with i := 0xFFD } : State).i.toNat + j < 4096) ∧
    (0 ≤ (0 : RegIdx).val ∧ 4096 ≤ ({ blank with i := 0xFFFF } : State).i.toNat + 0 ∧
      ∀ j, j < 0 → ({ blank with i := 0xFFFF } : State).i.toNat + j < 4096) :=
  ⟨by decide, by decide, ⟨by decide, by decide, fun _ h => absurd h (by omega)⟩⟩

/-- V0..V1 from 0xFFE are inside memory; of V0..V2 the last is outside. -/
theorem witness_LoadRegisterBlock :
    ({ blank with i := 0xFFE } : State).i.toNat + (1 : RegIdx).val < 4096 ∧
    (2 ≤ (2 : RegIdx).val ∧ 4096 ≤ ({ blank with i := 0xFFE } : State).i.toNat + 2 ∧
      ∀ j, j < 2 → ({ blank with i := 0xFFE } : State).i.toNat + j < 4096) ∧
    (0 ≤ (0 : RegIdx).val ∧ 4096 ≤ ({ blank with i := 0x1000 } : State).i.toNat + 0 ∧
      ∀ j, j < 0 → ({ blank with i := 0x1000 } : State).i.toNat + j < 4096) :=
  ⟨by decide, by decide, ⟨by decide, by decide, fun _ h => absurd h (by omega)⟩⟩

end Sys2Proof.Tests
end

section
/-! Proofs of the statements about the state (10_state.md): what reset gives every piece of it, and which piece each instruction may
change. -/

namespace Sys2Proof.Machine

/-! ## Reset -/

/-- Reading memory that holds consecutive bytes and nothing else. -/
theorem memGet_cellsFrom (a : Nat) (bs : List Byte) (b : Nat) :
    memGet (cellsFrom a bs) b = if a ≤ b ∧ b < a + bs.length then bs.getD (b - a) 0 else 0 := by
  induction bs generalizing a with
  | nil => simp [cellsFrom, memGet]
  | cons x bs ih =>
    have hcell : memGet (cellsFrom a (x :: bs)) b = if b = a then x else memGet (cellsFrom (a + 1) bs) b := by
      rw [cellsFrom]
      split
      · next hx =>
        by_cases hb : b = a
        · rw [if_pos hb, ih, if_neg (by omega), hx]
        · rw [if_neg hb]
      · simp only [memGet, @eq_comm _ a b]
    rw [hcell, ih, List.length_cons]
    by_cases hb : b = a
    · simp [hb]
    · by_cases hin : a + 1 ≤ b ∧ b < a + 1 + bs.length
      · obtain ⟨d, rfl⟩ : ∃ d, b = a + 1 + d := ⟨b - (a + 1), by omega⟩
        rw [if_neg hb, if_pos hin, if_pos (by omega), show a + 1 + d - a = d + 1 by omega, List.getD_cons_succ,
          Nat.add_sub_cancel_left]
      · rw [if_neg hb, if_neg hin, if_neg (by omega)]

/-- Memory after reset reads the font at 0x000..0x04F where it is preloaded, and 0 everywhere else (10_state.md R24). -/
theorem memGet_resetMemory (preloadFont : Bool) (a : Nat) :
    memGet (resetMemory preloadFont) a = if preloadFont = true ∧ a < 80 then fontBytes.getD a 0 else 0 := by
  cases preloadFont with
  | false => rfl
  | true =>
    have hlen : fontBytes.length = 80 := rfl
    simp only [resetMemory, if_true, memGet_cellsFrom, hlen]
    simp

@[simp] theorem State.resetWith_getV (preloadFont : Bool) (r : RegIdx) : (State.resetWith preloadFont).getV r = 0 :=
  Vector.getElem_replicate ..

@[simp] theorem State.resetWith_keyDown (preloadFont : Bool) (k : Key) : (State.resetWith preloadFont).keyDown k = false :=
  Vector.getElem_replicate ..

@[simp] theorem State.resetWith_stack_getElem (preloadFont : Bool) (j : Nat) (hj : j < 16) :
    (State.resetWith preloadFont).stack[j] = 0 :=
  Vector.getElem_replicate ..

@[simp] theorem State.resetWith_fb_getElem (preloadFont : Bool) (c : Nat) (hc : c < 2048) :
    (State.resetWith preloadFont).fb[c] = false :=
  Vector.getElem_replicate ..

/-- Settles O17: the memory after reset is canonical, PC is ORIGIN and every slot is 0. -/
theorem resetMeetsTheInvariant : Obligations.ResetMeetsTheInvariant := fun preloadFont =>
  ⟨wf_resetMemory preloadFont, (by decide : (0x200#16).toNat ≤ 0x10FE), fun j => by simp⟩

/-- Settles O19: the reset command's state is `State.resetWith` but for the count of draws, which no clause reads. -/
theorem resetValues : Obligations.ResetValues := by
  refine ⟨fun b s => ⟨hostReset b s, rfl, ?_⟩, rfl⟩
  exact ⟨State.resetWith_getV b, rfl, rfl, rfl, fun j => State.resetWith_stack_getElem b j.val j.isLt, rfl, rfl,
    State.resetWith_keyDown b, State.resetWith_fb_getElem b, memGet_resetMemory b⟩

/-! ## What an execute phase may change -/

/-- The conditional skips (42_control_flow.md R70, 44_keypad.md R89, R90). -/
def isSkip : Instr → Bool
  | .seByte _ _ | .sneByte _ _ | .seReg _ _ | .sneReg _ _ | .skp _ | .sknp _ => true
  | _ => false

/-- What the execute phase of an instruction may make of the state `s`: which of its fields may differ afterwards, and for which
instructions. -/
inductive ExecEffect (s : State) : Instr → State → Prop where
  /-- Nothing: SYS, and the stack faults. -/
  | nothing {i : Instr} (r : TickResult) : ExecEffect s i { s with result := r }
  | jp (nnn : Imm12) : ExecEffect s (.jp nnn) { s with pc := zextAddr nnn, result := .ok }
  | jpV0 (nnn : Imm12) : ExecEffect s (.jpV0 nnn) { s with pc := zextAddr nnn + zextByte (s.getV 0), result := .ok }
  | skip {i : Instr} (c : Bool) (hi : isSkip i = true) : ExecEffect s i { s.skipIf c with result := .ok }
  /-- LD Vx, K with no key pressed. -/
  | wait (x : RegIdx) : ExecEffect s (.ldVxK x) { s.rewind with result := .ok }
  /-- General registers among those that the instruction writes. -/
  | registers {i : Instr} (v : Vector Byte 16) (draws : Nat) (r : TickResult)
      (hv : ∀ q : RegIdx, i.writesReg q = false → v[q.val] = s.v[q.val]) :
      ExecEffect s i { s with v := v, draws := draws, result := r }
  /-- CALL: the slot at SP receives PC, and SP counts it. -/
  | call (nnn : Imm12) (h : s.sp.val < 16) :
      ExecEffect s (.call nnn) { s with
        stack := s.stack.set s.sp.val s.pc h, sp := ⟨s.sp.val + 1, Nat.succ_lt_succ h⟩, pc := zextAddr nnn, result := .ok }
  /-- RET: PC and SP; every slot stays (decision D24). -/
  | ret (sp : Fin 17) (pc : Addr) : ExecEffect s .ret { s with sp := sp, pc := pc, result := .ok }
  | ldI (nnn : Imm12) : ExecEffect s (.ldI nnn) { s with i := zextAddr nnn, result := .ok }
  | addI (x : RegIdx) : ExecEffect s (.addI x) { s with i := s.i + zextByte (s.getV x), result := .ok }
  | ldF (x : RegIdx) : ExecEffect s (.ldF x) { s with i := glyphAddr (s.getV x), result := .ok }
  | ldDtVx (x : RegIdx) : ExecEffect s (.ldDtVx x) { s with dt := s.getV x, result := .ok }
  | ldStVx (x : RegIdx) : ExecEffect s (.ldStVx x) { s with st := s.getV x, result := .ok }
  | cls : ExecEffect s .cls { s with fb := clearScreen, result := .ok }
  /-- DRW: the framebuffer, and VF where it completes. -/
  | drw (x y : RegIdx) (n : Nibble) (fb : Vector Bool 2048) (hit : Bool) :
      ExecEffect s (.drw x y n) { ({ s with fb := fb } : State).setFlag hit with result := .ok }
  | drwFault (x y : RegIdx) (n : Nibble) (fb : Vector Bool 2048) (f : Fault) :
      ExecEffect s (.drw x y n) { s with fb := fb, result := .fault f }
  /-- LD B and LD [I]: the bytes inside memory, at I upward. -/
  | store {i : Instr} (bs : List Byte) (r : TickResult) (hlen : bs.length = i.bytesStored) :
      ExecEffect s i { s with mem := putBytes s.mem s.i.toNat (bs.take (4096 - s.i.toNat)), result := r }

namespace ExecEffect

variable {s : State} {i : Instr}

/-- A write of one register that the instruction may write. -/
theorem setV {x : RegIdx} (b : Byte) (hx : i.writesReg x = true) : ExecEffect s i { s.setV x b with result := .ok } := by
  refine .registers _ s.draws .ok fun q hq => (State.getV_setV s x q b).trans (if_neg ?_)
  rintro rfl
  simp [hx] at hq

/-- A write of a result and its flag, by an instruction that may write both registers. -/
theorem setWithFlag {x : RegIdx} (p : Byte × Bool) (hx : i.writesReg x = true) (hf : i.writesReg 15 = true) :
    ExecEffect s i { s.setWithFlag x p with result := .ok } := by
  refine .registers _ s.draws .ok fun q hq => ?_
  have hqx : q ≠ x := by rintro rfl; simp [hx] at hq
  have hqf : q ≠ 15 := by rintro rfl; simp [hf] at hq
  exact (State.getV_setWithFlag s x q p).trans (by rw [if_neg hqf, if_neg hqx]; rfl)

end ExecEffect

theorem execCall_effect (nnn : Imm12) (s : State) : ∃ t, execCall nnn s = .next t ∧ ExecEffect s (.call nnn) t := by
  unfold execCall
  rcases push_cases s s.pc with ⟨_, hfull⟩ | ⟨hlt, hpush⟩
  · rw [hfull]
    exact ⟨_, rfl, .nothing _⟩
  · rw [hpush]
    exact ⟨_, rfl, .call nnn hlt⟩

theorem execRet_effect (s : State) : ∃ t, execRet s = .next t ∧ ExecEffect s .ret t := by
  unfold execRet
  rcases pop_cases s with ⟨_, hempty⟩ | ⟨_, _, _, hpop⟩
  · rw [hempty]
    exact ⟨_, rfl, .nothing _⟩
  · rw [hpop]
    exact ⟨_, rfl, .ret _ _⟩

theorem execLdVxK_effect (x : RegIdx) (s : State) : ∃ t, execLdVxK x s = .next t ∧ ExecEffect s (.ldVxK x) t := by
  unfold execLdVxK
  split
  · exact ⟨_, rfl, .wait x⟩
  · exact ⟨_, rfl, .setV _ (beq_self_eq_true x)⟩

theorem execDrw_effect (x y : RegIdx) (n : Nibble) (s : State) :
    ∃ t, execDrw x y n s = .next t ∧ ExecEffect s (.drw x y n) t := by
  rcases execDrw_cases x y n s with ⟨fb, hit, h⟩ | ⟨fb, a, _, _, h⟩
  · exact ⟨_, h, .drw x y n fb hit⟩
  · exact ⟨_, h, .drwFault x y n fb _⟩

theorem execLoadRegs_effect (x : RegIdx) (s : State) : ∃ t, execLoadRegs x s = .next t ∧ ExecEffect s (.loadRegs x) t := by
  refine ⟨_, finish_loadBytes s s.i.toNat (regsUpTo x), .registers _ s.draws _ fun q hq => ?_⟩
  have hqx : ¬ q ≤ x := of_decide_eq_false hq
  exact (loadRegs_getV s s.i.toNat x q).trans (if_neg fun h => hqx h.1)

/-- Every execute phase answers a next state, and its effect on the state is one of those of `ExecEffect`. -/
theorem exec_effect (i : Instr) (s : State) : ∃ t, exec i s = .next t ∧ ExecEffect s i t :=
  match i with
  | .sys _ => ⟨_, rfl, .nothing .ok⟩
  | .jp nnn => ⟨_, rfl, .jp nnn⟩
  | .jpV0 nnn => ⟨_, rfl, .jpV0 nnn⟩
  | .seByte _ _ | .sneByte _ _ | .seReg _ _ | .sneReg _ _ | .skp _ | .sknp _ => ⟨_, rfl, .skip _ rfl⟩
  | .ldByte x _ | .addByte x _ | .ldReg x _ | .orReg x _ | .andReg x _ | .xorReg x _ | .ldVxDt x =>
    ⟨_, rfl, .setV _ (beq_self_eq_true x)⟩
  | .addReg x _ | .subReg x _ | .subnReg x _ | .shr x _ | .shl x _ =>
    ⟨_, rfl, .setWithFlag _ (by simp [Instr.writesReg]) (by simp [Instr.writesReg])⟩
  | .rnd x kk => ⟨_, rfl, .registers _ _ _ fun q hq =>
      (State.getV_setV s x q (Config.randomByte s.draws &&& kk)).trans (if_neg (ne_of_beq_false hq))⟩
  | .call nnn => execCall_effect nnn s
  | .ret => execRet_effect s
  | .ldVxK x => execLdVxK_effect x s
  | .drw x y n => execDrw_effect x y n s
  | .cls => ⟨_, rfl, .cls⟩
  | .ldI nnn => ⟨_, rfl, .ldI nnn⟩
  | .addI x => ⟨_, rfl, .addI x⟩
  | .ldF x => ⟨_, rfl, .ldF x⟩
  | .ldDtVx x => ⟨_, rfl, .ldDtVx x⟩
  | .ldStVx x => ⟨_, rfl, .ldStVx x⟩
  | .ldB x => ⟨_, finish_storeBytes s s.i.toNat (decimalDigits (s.getV x)), .store _ _ rfl⟩
  | .storeRegs x => ⟨_, finish_storeBytes s s.i.toNat ((regsUpTo x).map s.getV), .store _ _ (by
      rw [List.length_map, regsUpTo_length]; rfl)⟩
  | .loadRegs x => execLoadRegs_effect x s

/-- The inversion lemma of the execute phase: whatever state it answers, `ExecEffect` says how that state came about. -/
theorem effect_of_exec {i : Instr} {s t : State} (h : exec i s = .next t) : ExecEffect s i t := by
  obtain ⟨u, hu, heff⟩ := exec_effect i s
  rw [hu] at h
  cases h
  exact heff

/-! ## The frames -/

/-- Settles O28: by the effect of the instruction; only `registers` and `drw` touch a register at all. -/
theorem registersChangeOnlyAsDestinations : Obligations.RegistersChangeOnlyAsDestinations := by
  intro i s t q h hq
  cases effect_of_exec h with
  | registers v draws r hv => exact hv q hq
  | drw x y n fb hit =>
    exact (State.getV_setFlag { s with fb := fb } q hit).trans (if_neg (ne_of_beq_false hq))
  | skip c _ => exact State.skipIf_getV s c q
  | _ => rfl

/-- Settles O31: by the effect of the instruction; a field named by a clause differs only in the effects of instructions that the clause
excludes. The slots under CALL need an argument of their own: the one written is S[SP]. -/
theorem specialStateChangesOnlyByItsInstructions : Obligations.SpecialStateChangesOnlyByItsInstructions := by
  intro i s t h
  cases effect_of_exec h with
  | call nnn hlt =>
    have hslot : ∀ j : Fin 16, j.val ≠ s.sp.val → (s.stack.set s.sp.val s.pc hlt)[j.val] = s.stack[j.val] :=
      fun j hj => Vector.getElem_set_ne hlt j.isLt hj.symm
    simpa using hslot
  | _ => simp

end Sys2Proof.Machine
end

section
/-! Proofs of the statements about memory (20_memory.md): its accesses and the fetch, an instruction placed in memory, the block transfers
and the frame of a store, and the ticks over memory that holds no program. -/

namespace Sys2Proof

/-! ## Words and their encoding -/

/-- The value of an opcode from its two bytes: the first is the high one (20_memory.md R36). -/
theorem opcodeOfBytes_toNat (hi lo : Byte) : (opcodeOfBytes hi lo).toNat = hi.toNat * 256 + lo.toNat := by
  calc (opcodeOfBytes hi lo).toNat
      = hi.toNat <<< 8 ||| lo.toNat := BitVec.toNat_append hi lo
    _ = hi.toNat <<< 8 + lo.toNat := (Nat.shiftLeft_add_eq_or_of_lt lo.isLt _).symm
    _ = hi.toNat * 256 + lo.toNat := by rw [Nat.shiftLeft_eq]

theorem extractLsb'_highByte (op : Opcode) : op.extractLsb' 8 8 = BitVec.ofNat 8 (op.toNat / 256) :=
  congrArg (BitVec.ofNat 8) (Nat.shiftRight_eq_div_pow op.toNat 8)

theorem extractLsb'_lowByte (op : Opcode) : op.extractLsb' 0 8 = BitVec.ofNat 8 (op.toNat % 256) := by
  apply BitVec.eq_of_toNat_eq
  simp [BitVec.extractLsb'_toNat]

@[simp] theorem tableOpcode_toNat (op : Opcode) : tableOpcode 16 op.toNat = op := by
  rw [tableOpcode, Nat.mod_eq_of_lt op.isLt, BitVec.ofNat_toNat, BitVec.setWidth_eq]

theorem encNNN_inj {o : Nibble} {m n : Imm12} : encNNN o m = encNNN o n ↔ m = n :=
  ⟨fun h => by simpa using congrArg fieldNNN h, congrArg (encNNN o)⟩

/-- Decoding undoes encoding (30_encoding.md R48, R49). SYS needs its well-formedness: two of its words are CLS and RET. -/
theorem decode_encode {i : Instr} (hi : i.wellFormed = true) : decode (encode i) = .ok i := by
  cases i with
  | sys nnn =>
    have hne : nnn ≠ 0x0E0#12 ∧ nnn ≠ 0x0EE#12 := by simpa [Instr.wellFormed] using hi
    have hcls : encNNN 0x0#4 nnn ≠ 0x00E0#16 := fun h => hne.1 (encNNN_inj.1 (h.trans (rfl : _ = encNNN 0x0#4 0x0E0#12)))
    have hret : encNNN 0x0#4 nnn ≠ 0x00EE#16 := fun h => hne.2 (encNNN_inj.1 (h.trans (rfl : _ = encNNN 0x0#4 0x0EE#12)))
    simp [encode, decode, decode0, hcls, hret]
  | cls | ret => rfl
  | _ => simp [encode, decode, decode8, decodeE, decodeF]

end Sys2Proof

namespace Sys2Proof.Machine

/-! ## Accesses and the fetch -/

/-- A write that succeeds is inside memory, and changes the one byte. -/
theorem memWrite_ok {s t : State} {a : Nat} {v : Byte} (h : memWrite s a v = .ok t) :
    a < 4096 ∧ t = { s with mem := memPut s.mem a v } := by
  rcases Nat.lt_or_ge a 4096 with ha | ha
  · rw [memWrite_of_lt v ha] at h
    cases h
    exact ⟨ha, rfl⟩
  · rw [memWrite_of_ge v ha] at h
    cases h

/-- Settles O14: the two sides of the bound on an address, and a read after a write inside it. -/
theorem readAfterWrite : Obligations.ReadAfterWrite := by
  refine fun s a v => ⟨fun ha => ⟨memRead_of_ge ha, memWrite_of_ge v ha⟩, fun ha => ⟨_, memWrite_of_lt v ha, rfl, ?_, fun b hb => ?_⟩⟩
  · rw [memRead_of_lt ha, memGet_memPut, if_pos rfl]
  · unfold memRead
    rw [memGet_memPut, if_neg hb]

/-- Settles O2: PC is outside memory, at its last byte, or has two bytes to fetch. -/
theorem fetchReadsBigEndianAtPc : Obligations.FetchReadsBigEndianAtPc := by
  refine fun s => ⟨fun hpc => ?_, fun hpc => ?_, fun hpc => ⟨_, fetch_of_lt hpc, opcodeOfBytes_toNat _ _⟩⟩
  · rw [fetch_of_ge (by omega), Nat.max_eq_left hpc]
  · rw [fetch_of_ge (by omega), hpc]
    rfl

/-- A fetch inside memory, by the two bytes at PC. -/
theorem fetch_of_bytes {s : State} {hi lo : Byte} (h : s.pc.toNat + 1 < 4096) (hhi : memGet s.mem s.pc.toNat = hi)
    (hlo : memGet s.mem (s.pc.toNat + 1) = lo) : fetch s = .ok (opcodeOfBytes hi lo) := by
  rw [fetch_of_lt h, hhi, hlo]

/-- A fetch right after two bytes were put at PC. -/
theorem fetch_memPut_memPut {s : State} (hi lo : Byte) (h : s.pc.toNat + 1 < 4096) :
    fetch { s with mem := memPut (memPut s.mem s.pc.toNat hi) (s.pc.toNat + 1) lo } = .ok (opcodeOfBytes hi lo) :=
  fetch_of_bytes h (by simp) (by simp)

/-- Settles O15: both writes succeeded, so both bytes are in memory. -/
theorem fetchSeesEarlierStores : Obligations.FetchSeesEarlierStores := by
  intro s t u hi lo hst htu
  obtain ⟨_, rfl⟩ := memWrite_ok hst
  obtain ⟨hpc, rfl⟩ := memWrite_ok htu
  exact fetch_memPut_memPut hi lo hpc

/-! ## A tick, by what the fetch answers -/

theorem step_of_fetch_error {s : State} {f : Fault} (h : fetch s = .error f) : step s = .next { s with result := .fault f } := by
  unfold step
  rw [h]
  rfl

theorem step_of_decode {s : State} {op : Opcode} {i : Instr} (hf : fetch s = .ok op) (hd : decode op = .ok i) :
    step s = exec i { s with pc := s.pc + 2 } := by
  unfold step
  simp only [hf, hd]
  rfl

/-- Placing a word where it fits leaves PC and puts its two bytes there, high byte first. -/
theorem State.withFetchWord_of_lt {s : State} (op : Opcode) (h : s.pc.toNat + 1 < 4096) :
    s.withFetchWord 16 op.toNat =
      { s with mem := memPut (memPut s.mem s.pc.toNat (op.extractLsb' 8 8)) (s.pc.toNat + 1) (op.extractLsb' 0 8) } := by
  simp [State.withFetchWord, h]

/-- Settles O13: the fetch answers the placed word, which decodes to the instruction. -/
theorem placedInstructionRuns : Obligations.PlacedInstructionRuns := by
  intro s i hi hpc
  have hfetch := fetch_memPut_memPut ((encode i).extractLsb' 8 8) ((encode i).extractLsb' 0 8) hpc
  rw [opcodeOfBytes_bytes] at hfetch
  rw [State.withFetchWord_of_lt (encode i) hpc, step_of_decode hfetch (decode_encode hi), extractLsb'_highByte, extractLsb'_lowByte]

/-! ## Stores and loads of several bytes -/

/-- What reads after a store of bytes from `a`, those at or above 4096 dropped. -/
theorem memGet_putBytes_take (m : Memory) (a : Nat) (bs : List Byte) (b : Nat) :
    memGet (putBytes m a (bs.take (4096 - a))) b =
      if a ≤ b ∧ b < a + bs.length ∧ b < 4096 then bs.getD (b - a) 0 else memGet m b := by
  rw [memGet_putBytes, List.length_take]
  by_cases h : a ≤ b ∧ b < a + bs.length ∧ b < 4096
  · rw [if_pos h, if_pos (by omega)]
    simp [show b - a < 4096 - a by omega]
  · rw [if_neg h, if_neg (by omega)]

/-- The result of accesses that are all in memory. -/
theorem resultOf_rangeFault_ok {a n : Nat} (h : n ≤ 4096 - a) : resultOf (rangeFault a n) = .ok := by
  rw [rangeFault, if_pos h, resultOf]

/-- The result of accesses of which the `k`-th is the first outside memory. -/
theorem resultOf_rangeFault_first {a n k : Nat} (hk : k < n) (hout : 4096 ≤ a + k) (hin : ∀ j, j < k → a + j < 4096) :
    resultOf (rangeFault a n) = .fault (.memoryFault (a + k)) := by
  have hmax : max a 4096 = a + k := by
    cases k with
    | zero => omega
    | succ j => have := hin j j.lt_succ_self; omega
  rw [rangeFault, if_neg (by omega), hmax, resultOf]

theorem regsUpTo_map_getD (f : RegIdx → Byte) {x j : RegIdx} (h : j ≤ x) : ((regsUpTo x).map f).getD j.val 0 = f j := by
  have hj : j.val < (regsUpTo x).length := by rw [regsUpTo_length]; exact Nat.lt_succ_of_le h
  have hget : (regsUpTo x)[j.val] = j := Fin.ext (regsUpTo_getElem x j.val hj)
  simp [List.getElem?_eq_getElem hj, hget]

/-- Settles O53: the block is the list of V0..Vx, stored from I upward. -/
theorem storeRegisterBlock : Obligations.StoreRegisterBlock := by
  intro s x
  have hlen : ((regsUpTo x).map s.getV).length = x.val + 1 := by rw [List.length_map, regsUpTo_length]
  refine ⟨_, finish_storeBytes s s.i.toNat ((regsUpTo x).map s.getV), rfl, fun j hj hin => ?_, fun a ha => ?_, fun hin => ?_,
    fun k hk hout hin => ?_⟩
  · have hjx : j.val ≤ x.val := hj
    rw [memGet_putBytes_take, hlen, if_pos (by omega), Nat.add_sub_cancel_left, regsUpTo_map_getD s.getV hj]
  · rw [memGet_putBytes_take, hlen, if_neg (by omega)]
  · rw [hlen]
    exact resultOf_rangeFault_ok (by omega)
  · rw [hlen]
    exact resultOf_rangeFault_first (by omega) hout hin

/-- Settles O54: the block is V0..Vx, loaded from I upward. -/
theorem loadRegisterBlock : Obligations.LoadRegisterBlock := by
  intro s x
  refine ⟨_, finish_loadBytes s s.i.toNat (regsUpTo x), rfl, fun j => ?_, fun hin => ?_, fun k hk hout hin => ?_⟩
  · refine (loadRegs_getV s s.i.toNat x j).trans ?_
    simp only [Nat.lt_sub_iff_add_lt, Nat.add_comm]
  · rw [regsUpTo_length]
    exact resultOf_rangeFault_ok (by omega)
  · rw [regsUpTo_length]
    exact resultOf_rangeFault_first (by omega) hout hin

/-- Settles O29: by the effect of the instruction; only `store` touches memory. -/
theorem memoryChangesOnlyWhereStored : Obligations.MemoryChangesOnlyWhereStored := by
  intro i s t a h ha
  cases effect_of_exec h with
  | store bs r hlen => rw [memGet_putBytes_take, hlen, if_neg (by omega)]
  | _ => simp

/-! ## Ticks over memory that holds no program -/

theorem runCommands_append {cs : List HostCommand} {s t : State} (ds : List HostCommand) (h : runCommands cs s = .next t) :
    runCommands (cs ++ ds) s = runCommands ds t := by
  induction cs generalizing s with
  | nil => cases h; rfl
  | cons c cs ih =>
    rw [runCommands] at h
    rw [List.cons_append, runCommands]
    split at h
    · exact ih h
    · cases h
    · cases h

theorem runCommands_tick {s t : State} (h : step s = .next t) : runCommands [.tick] s = .next t := by
  simp only [runCommands, command, h]

/-- One more tick, after `k` of them. -/
theorem runCommands_replicate_tick_succ {k : Nat} {s t u : State} (hk : runCommands (List.replicate k .tick) s = .next t)
    (ht : step t = .next u) : runCommands (List.replicate (k + 1) .tick) s = .next u := by
  rw [List.replicate_succ', runCommands_append _ hk, runCommands_tick ht]

/-- Above the font, memory after reset reads 0. -/
theorem memGet_reset_of_ge {a : Nat} (h : 80 ≤ a) : memGet State.reset.mem a = 0 :=
  (memGet_resetMemory true a).trans (if_neg (by omega))

/-- The state after `k` ticks from reset, while PC is inside memory (70_reset_and_hazards.md R125). -/
def idleState (k : Nat) : State := { State.reset with pc := BitVec.ofNat 16 (0x200 + 2 * k) }

theorem idleState_pc_toNat {k : Nat} (h : k ≤ 1792) : (idleState k).pc.toNat = 0x200 + 2 * k :=
  Nat.mod_eq_of_lt (by omega)

theorem step_idleState {k : Nat} (h : k < 1792) : step (idleState k) = .next (idleState (k + 1)) := by
  have hpc := idleState_pc_toNat h.le
  have hzero : ∀ a, 80 ≤ a → memGet (idleState k).mem a = 0 := fun _ => memGet_reset_of_ge
  have hnext : (idleState k).pc + 2 = (idleState (k + 1)).pc := (BitVec.ofNat_add _ 2).symm
  rw [step_zero (by omega) (hzero _ (by omega)) (hzero _ (by omega)), hnext]
  rfl

theorem step_idleState_last : step (idleState 1792) = .next { idleState 1792 with result := .fault (.memoryFault 0x1000) } := by
  have hpc := idleState_pc_toNat (le_refl 1792)
  apply step_of_fetch_error
  rw [fetch_of_ge (by omega), hpc]
  rfl

theorem runCommands_ticks_from_reset {k : Nat} (h : k ≤ 1792) :
    runCommands (List.replicate k .tick) State.reset = .next (idleState k) := by
  induction k with
  | zero => rfl
  | succ k ih => exact runCommands_replicate_tick_succ (ih (by omega)) (step_idleState h)

/-- Settles O21: 1792 ticks over zero words, then the fetch at 0x1000. -/
theorem ticksWithoutAProgram : Obligations.TicksWithoutAProgram :=
  ⟨fun _ => runCommands_ticks_from_reset,
    runCommands_replicate_tick_succ (runCommands_ticks_from_reset (le_refl 1792)) step_idleState_last⟩

end Sys2Proof.Machine
end

section
/-! Proofs of the statements about a tick (30_encoding.md R54): it runs the instruction that the word at PC decodes to, or it ends before
the execute phase with a fault; and every tick and every list of host commands completes. -/

namespace Sys2Proof

/-! ## Encoding undoes decoding -/

theorem encNNN_of_fieldO {op : Opcode} {o : Nibble} (ho : fieldO op = o) : encNNN o (fieldNNN op) = op :=
  ho ▸ encNNN_fields op

theorem encXKK_of_fieldO {op : Opcode} {o : Nibble} (ho : fieldO op = o) : encXKK o (fieldX op) (fieldKK op) = op :=
  ho ▸ encXKK_fields op

theorem encXKK_of_fieldO_fieldKK {op : Opcode} {o : Nibble} {kk : Byte} (ho : fieldO op = o) (hkk : fieldKK op = kk) :
    encXKK o (fieldX op) kk = op :=
  hkk ▸ encXKK_of_fieldO ho

theorem encXYN_of_fieldO {op : Opcode} {o : Nibble} (ho : fieldO op = o) : encXYN o (fieldX op) (fieldY op) (fieldN op) = op :=
  ho ▸ encXYN_fields op

theorem encXYN_of_fieldO_fieldN {op : Opcode} {o n : Nibble} (ho : fieldO op = o) (hn : fieldN op = n) :
    encXYN o (fieldX op) (fieldY op) n = op :=
  hn ▸ encXYN_of_fieldO ho

theorem encode_of_decode0 {op : Opcode} {i : Instr} (ho : fieldO op = 0#4) (h : decode0 op = .ok i) : encode i = op := by
  unfold decode0 at h
  split at h
  · next hcls => cases h; exact hcls.symm
  · split at h
    · next hret => cases h; exact hret.symm
    · cases h; exact encNNN_of_fieldO ho

theorem encode_of_decode8 {op : Opcode} {i : Instr} (ho : fieldO op = 8#4) (h : decode8 op = .ok i) : encode i = op := by
  unfold decode8 at h
  split at h <;> cases h <;> exact encXYN_of_fieldO_fieldN ho (by assumption)

theorem encode_of_decodeE {op : Opcode} {i : Instr} (ho : fieldO op = 14#4) (h : decodeE op = .ok i) : encode i = op := by
  unfold decodeE at h
  split at h <;> cases h <;> exact encXKK_of_fieldO_fieldKK ho (by assumption)

theorem encode_of_decodeF {op : Opcode} {i : Instr} (ho : fieldO op = 15#4) (h : decodeF op = .ok i) : encode i = op := by
  unfold decodeF at h
  split at h <;> cases h <;> exact encXKK_of_fieldO_fieldKK ho (by assumption)

/-- Encoding undoes decoding, by the major opcode (30_encoding.md R48, R49): case `h_k` of the decoder is the major opcode `k - 1`. -/
theorem encode_of_decode {op : Opcode} {i : Instr} (h : decode op = .ok i) : encode i = op := by
  unfold decode at h
  split at h
  case h_1 ho => exact encode_of_decode0 ho h
  case h_6 ho | h_10 ho =>
    split at h
    · next hn => cases h; exact encXYN_of_fieldO_fieldN ho hn
    · cases h
  case h_9 ho => exact encode_of_decode8 ho h
  case h_14 ho => cases h; exact encXYN_of_fieldO ho
  case h_15 ho => exact encode_of_decodeE ho h
  case h_16 h0 h1 h2 h3 h4 h5 h6 h7 h8 h9 hA hB hC hD hE =>
    exact encode_of_decodeF (majorOpcode_last h0 h1 h2 h3 h4 h5 h6 h7 h8 h9 hA hB hC hD hE) h
  case h_2 ho | h_3 ho | h_11 ho | h_12 ho => cases h; exact encNNN_of_fieldO ho
  case h_4 ho | h_5 ho | h_7 ho | h_8 ho | h_13 ho => cases h; exact encXKK_of_fieldO ho

/-- Only instructions of the hardware are decoded: the words that SYS may not have decode to CLS and RET. -/
theorem wellFormed_of_decode {op : Opcode} {i : Instr} (h : decode op = .ok i) : i.wellFormed = true := by
  cases i with
  | sys nnn =>
    have hsys : decode (encNNN 0#4 nnn) = .ok (.sys nnn) := (congrArg decode (encode_of_decode h)).trans h
    have hcls : nnn ≠ 0x0E0#12 := by
      rintro rfl
      cases hsys.symm.trans (rfl : _ = Except.ok Instr.cls)
    have hret : nnn ≠ 0x0EE#12 := by
      rintro rfl
      cases hsys.symm.trans (rfl : _ = Except.ok Instr.ret)
    simp [Instr.wellFormed, hcls, hret]
  | _ => rfl

end Sys2Proof

namespace Sys2Proof.Machine

/-! ## One tick -/

/-- A tick over a word that decodes to no instruction leaves PC advanced and returns the decode fault. -/
theorem step_of_not_decode {s : State} {op : Opcode} (hf : fetch s = .ok op) (hd : ∀ i, decode op ≠ .ok i) :
    step s = .next { s with pc := s.pc + 2, result := .fault (.decodeFault op) } := by
  obtain ⟨f, hf', -⟩ | ⟨op', hf', -, hstep⟩ | ⟨op', i, hf', hd', -⟩ := step_cases s
  · cases hf.symm.trans hf'
  · cases hf.symm.trans hf'
    exact hstep
  · cases hf.symm.trans hf'
    exact absurd hd' (hd i)

theorem step_next (s : State) : ∃ t, step s = .next t := by
  obtain ⟨_, -, hstep⟩ | ⟨_, -, -, hstep⟩ | ⟨_, i, -, -, hstep⟩ := step_cases s
  · exact ⟨_, hstep⟩
  · exact ⟨_, hstep⟩
  · exact hstep ▸ exec_next i _

/-- Settles O1: the fetch answers the two bytes at PC. -/
theorem stepRunsTheDecodedInstruction : Obligations.StepRunsTheDecodedInstruction := fun _ _ hpc hd =>
  ⟨wellFormed_of_decode hd, step_of_decode (fetch_of_lt hpc) hd⟩

/-- Settles O3, by the two ways a tick ends before its execute phase. -/
theorem faultsBeforeExecute : Obligations.FaultsBeforeExecute :=
  ⟨fun _ _ => step_of_fetch_error, fun _ _ => step_of_not_decode⟩

/-! ## Lists of host commands -/

theorem command_next (c : HostCommand) (s : State) : ∃ p, command c s = .next p := by
  cases c with
  | tick =>
    obtain ⟨t, ht⟩ := step_next s
    exact ⟨(t, commandResultOf t.result), by simp only [command, ht]⟩
  | _ => exact ⟨_, rfl⟩

theorem runCommands_next (cs : List HostCommand) (s : State) : ∃ t, runCommands cs s = .next t := by
  induction cs generalizing s with
  | nil => exact ⟨s, rfl⟩
  | cons c cs ih =>
    obtain ⟨⟨s', _⟩, hc⟩ := command_next c s
    simpa only [runCommands, hc] using ih s'

/-- Settles O4: a tick always answers a next state, the other commands do by definition, and a list of commands by induction. -/
theorem everyCommandSequenceCompletes : Obligations.EveryCommandSequenceCompletes :=
  ⟨step_next, runCommands_next⟩

end Sys2Proof.Machine
end

section
/-! Proofs of the statements about register loads and the ALU (41_load_alu.md): one rule for an instruction that writes a register, one
for an instruction that writes a result and then its flag, and what each flag computation answers. -/

namespace Sys2Proof.Machine

/-! ## An instruction that completes with a register written -/

theorem complete_setV_onlyRegs (s : State) (x : RegIdx) (b : Byte) :
    ∃ t, complete (s.setV x b) = .next t ∧ s.OnlyRegs t fun r => if r = x then b else s.getV r :=
  ⟨_, rfl, rfl, fun r => State.getV_setV s x r b⟩

theorem complete_setWithFlag_onlyRegs (s : State) (x : RegIdx) {p : Byte × Bool} {flag b : Byte} (hflag : flagByte p.2 = flag)
    (hb : p.1 = b) :
    ∃ t, complete (s.setWithFlag x p) = .next t ∧ s.OnlyRegs t fun r => if r = 15 then flag else if r = x then b else s.getV r := by
  subst hflag hb
  exact ⟨_, rfl, rfl, fun r => State.getV_setWithFlag s x r p⟩

/-! ## What the flag computations answer -/

theorem flagByte_decide (c : Prop) [Decidable c] : flagByte (decide c) = if c then 1 else 0 :=
  ite_congr (propext decide_eq_true_iff) (fun _ => rfl) fun _ => rfl

theorem flagByte_getLsbD (a : Byte) (k : Nat) : flagByte (a.getLsbD k) = BitVec.ofNat 8 (a.toNat / 2 ^ k % 2) := by
  rw [← BitVec.testBit_toNat, Nat.testBit_eq_decide_div_mod_eq, flagByte_decide]
  rcases Nat.mod_two_eq_zero_or_one (a.toNat / 2 ^ k) with h | h <;> rw [h] <;> rfl

theorem flagByte_shiftRightOne (a : Byte) : flagByte (shiftRightOne a).2 = BitVec.ofNat 8 (a.toNat % 2) := by
  rw [shiftRightOne, flagByte_getLsbD, pow_zero, Nat.div_one]

theorem flagByte_shiftLeftOne (a : Byte) : flagByte (shiftLeftOne a).2 = BitVec.ofNat 8 (a.toNat / 128) := by
  have htop : a.toNat / 2 ^ 7 % 2 = a.toNat / 128 := by omega
  rw [shiftLeftOne, flagByte_getLsbD, htop]

theorem shiftRightOne_fst (a : Byte) : (shiftRightOne a).1 = BitVec.ofNat 8 (a.toNat / 2) := by
  rw [shiftRightOne]
  bv_omega

theorem shiftLeftOne_fst (a : Byte) : (shiftLeftOne a).1 = BitVec.ofNat 8 (a.toNat * 2 % 256) := by
  rw [shiftLeftOne]
  bv_omega

/-! ## The statements -/

/-- Settles O32: each of the three writes V[x] and nothing else; ADD's byte is the sum that `addWithCarry` answers, its carry dropped. -/
theorem loadsAndAddImmediate : Obligations.LoadsAndAddImmediate := fun s =>
  ⟨fun x kk => complete_setV_onlyRegs s x kk,
    fun x kk => complete_setV_onlyRegs s x (addWithCarry (s.getV x) kk).1,
    fun x y => complete_setV_onlyRegs s x (s.getV y)⟩

/-- Settles O33: each of the three writes V[x] and nothing else. -/
theorem bitwiseOperations : Obligations.BitwiseOperations := fun s x y =>
  ⟨complete_setV_onlyRegs s x (s.getV x ||| s.getV y),
    complete_setV_onlyRegs s x (s.getV x &&& s.getV y),
    complete_setV_onlyRegs s x (s.getV x ^^^ s.getV y)⟩

/-- Settles O34: the sum is written first and the carry last, so VF holds the carry even for x = F. -/
theorem addSetsCarry : Obligations.AddSetsCarry := fun s x _ =>
  complete_setWithFlag_onlyRegs s x (flagByte_decide _) rfl

/-- Settles O35: the difference is written first and the no-borrow flag last; SUBN exchanges minuend and subtrahend. -/
theorem subtractSetsNoBorrow : Obligations.SubtractSetsNoBorrow := fun s x _ =>
  ⟨complete_setWithFlag_onlyRegs s x (flagByte_decide _) rfl, complete_setWithFlag_onlyRegs s x (flagByte_decide _) rfl⟩

/-- Settles O36: the shifted byte is written first and the bit shifted out last; y does not occur in either meaning. -/
theorem shiftsSetTheBitShiftedOut : Obligations.ShiftsSetTheBitShiftedOut := fun s x _ =>
  ⟨complete_setWithFlag_onlyRegs s x (flagByte_shiftRightOne _) (shiftRightOne_fst _),
    complete_setWithFlag_onlyRegs s x (flagByte_shiftLeftOne _) (shiftLeftOne_fst _)⟩

end Sys2Proof.Machine
end

section
/-! Proofs of the statements about control transfer, skips and the call stack (42_control_flow.md): what each of these instructions
answers, and the invariant that bounds PC and the return addresses along every run. -/

namespace Sys2Proof.Machine

/-! ## Jumps -/

/-- `zext_16` keeps the value of the address field (30_encoding.md R47). -/
theorem zextAddr_toNat (nnn : Imm12) : (zextAddr nnn).toNat = nnn.toNat :=
  BitVec.toNat_setWidth_of_le (by decide)

/-- The target of JP V0 does not wrap: the sum of a 12-bit address and a byte fits in 16 bits (R77, decision D8). -/
theorem jpV0_target_toNat (nnn : Imm12) (b : Byte) : (zextAddr nnn + zextByte b).toNat = nnn.toNat + b.toNat := by
  have hb : (zextByte b).toNat = b.toNat := BitVec.toNat_setWidth_of_le (by decide)
  rw [BitVec.toNat_add, zextAddr_toNat, hb]
  exact Nat.mod_eq_of_lt (by omega)

/-- Settles O38: each of the three completes at once, with the target that its operand gives. -/
theorem jumpsAndSys : Obligations.JumpsAndSys := fun s nnn =>
  ⟨rfl, ⟨_, rfl, rfl, zextAddr_toNat nnn⟩, _, rfl, rfl, jpV0_target_toNat nnn (s.getV 0)⟩

/-! ## The call stack -/

/-- CALL with a free slot (R75, R71). -/
theorem exec_call_of_lt {s : State} (nnn : Imm12) (h : s.sp.val < 16) :
    exec (.call nnn) s = .next { s with
      stack := s.stack.set s.sp.val s.pc h, sp := ⟨s.sp.val + 1, Nat.succ_lt_succ h⟩, pc := zextAddr nnn, result := .ok } := by
  simp only [exec, execCall, push_of_lt s.pc h, complete_eq]

/-- CALL with all 16 slots occupied (R75, R71). -/
theorem exec_call_full {s : State} (nnn : Imm12) (h : s.sp = 16) :
    exec (.call nnn) s = .next { s with result := .fault .stackOverflow } := by
  simp only [exec, execCall, push_full s.pc h, raiseFault_eq]

/-- RET with slot `j` the newest occupied one (R76, R72). -/
theorem exec_ret_of_succ {s : State} {j : Fin 16} (h : s.sp.val = j.val + 1) :
    exec .ret s = .next { s with pc := s.stack[j.val], sp := j.castSucc, result := .ok } := by
  obtain ⟨hsp, _⟩ | ⟨k, hk, hs, hpop⟩ := pop_cases s
  · simp [hsp] at h
  · obtain rfl : k = j.val := by omega
    simp only [exec, execRet, hpop, complete_eq]
    rfl

/-- RET with no slot occupied (R76, R72). -/
theorem exec_ret_empty {s : State} (h : s.sp = 0) : exec .ret s = .next { s with result := .fault .stackUnderflow } := by
  simp only [exec, execRet, pop_empty h, raiseFault_eq]

/-- Settles O39: the slot at SP is free, or there is none. -/
theorem callPushesTheReturnAddress : Obligations.CallPushesTheReturnAddress := by
  refine fun s nnn => ⟨fun hlt => ?_, fun hfull => exec_call_full nnn (Fin.ext hfull)⟩
  refine ⟨_, exec_call_of_lt nnn hlt, rfl, zextAddr_toNat nnn, rfl, fun j => ?_⟩
  rw [Vector.getElem_set]
  exact ite_congr (propext eq_comm) (fun _ => rfl) fun _ => rfl

/-- Settles O40: some slot is occupied, or none is. -/
theorem retPopsTheReturnAddress : Obligations.RetPopsTheReturnAddress := fun _ =>
  ⟨fun _ hj => ⟨_, exec_ret_of_succ hj, rfl, rfl, rfl⟩, fun hempty => exec_ret_empty (Fin.ext hempty)⟩

/-- Settles O41: the slot that RET reads is the one that CALL has just written. -/
theorem retAfterCallRestoresPc : Obligations.RetAfterCallRestoresPc := by
  intro s nnn hlt
  refine ⟨_, _, exec_call_of_lt nnn hlt, exec_ret_of_succ (j := ⟨s.sp.val, hlt⟩) rfl, ?_⟩
  rw [Vector.getElem_set_self]
  rfl

/-! ## Skips -/

/-- An instruction that skips on `c` completes and changes PC alone, where `c` decides `p` (R70). -/
theorem complete_skipIf_of_iff (s : State) {c : Bool} {p : Prop} [Decidable p] (h : c = true ↔ p) :
    complete (s.skipIf c) = .next { s with pc := if p then s.pc + 2 else s.pc, result := .ok } := by
  by_cases hp : p
  · rw [h.2 hp, if_pos hp]
    rfl
  · rw [Bool.eq_false_iff.2 (mt h.1 hp), if_neg hp]
    rfl

/-- The same for an instruction that skips where `p` fails. -/
theorem complete_skipIf_of_iff_not (s : State) {c : Bool} {p : Prop} [Decidable p] (h : c = true ↔ ¬ p) :
    complete (s.skipIf c) = .next { s with pc := if p then s.pc else s.pc + 2, result := .ok } := by
  rw [complete_skipIf_of_iff s h, ite_not]

/-- Settles O42: SE skips on equality of its operands, SNE on its failure. -/
theorem skipsAdvancePc : Obligations.SkipsAdvancePc := fun s _ _ _ =>
  ⟨complete_skipIf_of_iff s beq_iff_eq, complete_skipIf_of_iff_not s bne_iff_ne,
    complete_skipIf_of_iff s beq_iff_eq, complete_skipIf_of_iff_not s bne_iff_ne⟩

/-! ## The invariant: one tick -/

/-- A store of bytes from any address keeps the canonical form, those at or above 4096 dropped. -/
theorem wf_putBytes_take {m : Memory} (a : Nat) (bs : List Byte) (hw : m.wf = true) :
    Memory.wf (putBytes m a (bs.take (4096 - a))) = true := by
  rcases le_total a 4096 with ha | ha
  · exact wf_putBytes (by rw [List.length_take]; omega) hw
  · rw [Nat.sub_eq_zero_of_le ha]
    exact hw

/-- RET leaves PC, or sets it to a return address from the stack. -/
theorem exec_ret_pc {s t : State} (h : exec .ret s = .next t) : t.pc = s.pc ∨ ∃ j : Fin 16, t.pc = s.stack[j.val] := by
  obtain ⟨hsp, _⟩ | ⟨j, hj, hs, _⟩ := pop_cases s
  · rw [exec_ret_empty hsp] at h
    cases h
    exact .inl rfl
  · rw [exec_ret_of_succ (j := ⟨j, hj⟩) hs] at h
    cases h
    exact .inr ⟨_, rfl⟩

/-- Where a fetch answers a word, PC advanced by 2 is at most 0x1000 and has not wrapped. -/
theorem pc_bounds_of_fetch_ok {s : State} {op : Opcode} (h : fetch s = .ok op) :
    2 ≤ (s.pc + 2).toNat ∧ (s.pc + 2).toNat ≤ 0x1000 := by
  have hpc := lt_of_fetch_ok h
  have hadd : (s.pc + 2).toNat = s.pc.toNat + 2 := by bv_omega
  omega

/-- An execute phase keeps the invariant. In a tick PC is then the address of an instruction inside memory plus 2: at most 0x1000, which
bounds the return address that CALL pushes and PC after a skip, and at least 2, so that LD Vx, K can take 2 back. -/
theorem exec_keeps_inv {i : Instr} {s t : State} (h : exec i s = .next t) (hs : s.Inv) (hlo : 2 ≤ s.pc.toNat)
    (hhi : s.pc.toNat ≤ 0x1000) : t.Inv := by
  obtain ⟨hwf, hpc, hslots⟩ := hs
  cases effect_of_exec h with
  | jp nnn => exact ⟨hwf, by rw [zextAddr_toNat]; omega, hslots⟩
  | jpV0 nnn => exact ⟨hwf, by rw [jpV0_target_toNat]; omega, hslots⟩
  | skip c _ =>
    refine ⟨by simpa using hwf, ?_, by simpa using hslots⟩
    rw [State.skipIf_pc]
    split <;> bv_omega
  | wait x => exact ⟨hwf, by rw [State.rewind_pc]; bv_omega, hslots⟩
  | call nnn hlt =>
    refine ⟨hwf, by rw [zextAddr_toNat]; omega, fun j => ?_⟩
    rw [Vector.getElem_set]
    split
    · exact hhi
    · exact hslots j
  | ret sp pc =>
    refine ⟨hwf, ?_, hslots⟩
    rcases exec_ret_pc h with hsame | ⟨j, hslot⟩
    · rw [hsame]
      exact hpc
    · rw [hslot]
      exact (hslots j).trans (by decide)
  | store bs r _ => exact ⟨wf_putBytes_take s.i.toNat bs hwf, hpc, hslots⟩
  | _ => exact ⟨hwf, hpc, hslots⟩

theorem step_keeps_inv {s t : State} (hs : s.Inv) (h : step s = .next t) : t.Inv := by
  have ⟨hwf, _, hslots⟩ := hs
  obtain ⟨_, -, hstep⟩ | ⟨_, hf, -, hstep⟩ | ⟨_, i, hf, -, hstep⟩ := step_cases s
  · cases hstep.symm.trans h
    exact hs
  · obtain ⟨_, hhi⟩ := pc_bounds_of_fetch_ok hf
    cases hstep.symm.trans h
    exact ⟨hwf, hhi.trans (by decide), hslots⟩
  · obtain ⟨hlo, hhi⟩ := pc_bounds_of_fetch_ok hf
    exact exec_keeps_inv (hstep.symm.trans h) ⟨hwf, hhi.trans (by decide), hslots⟩ hlo hhi

/-- Settles O16: by the three ways a tick goes, and in the third by the effect of the instruction. -/
theorem tickKeepsTheInvariant : Obligations.TickKeepsTheInvariant := fun _ _ => step_keeps_inv

/-! ## The invariant: host commands -/

theorem hostLoad_keeps_inv {program : List Byte} {s t : State} {r : CommandResult} (hs : s.Inv) (h : hostLoad program s = (t, r)) :
    t.Inv := by
  have ⟨hwf, hpc, hslots⟩ := hs
  unfold hostLoad at h
  split at h
  · next hlen =>
    cases h
    exact ⟨wf_putBytes (Nat.add_le_add_left hlen 0x200) hwf, hpc, hslots⟩
  · cases h
    exact hs

/-- The command `tick` is a step. -/
theorem step_of_command_tick {s t : State} {r : CommandResult} (h : command .tick s = .next (t, r)) : step s = .next t := by
  obtain ⟨u, hu⟩ := step_next s
  simp only [command, hu] at h
  cases h
  exact hu

theorem command_keeps_inv {c : HostCommand} {s t : State} {r : CommandResult} (hs : s.Inv) (h : command c s = .next (t, r)) :
    t.Inv := by
  cases c with
  | reset preloadFont => cases h; exact resetMeetsTheInvariant preloadFont
  | load program => exact hostLoad_keeps_inv hs (Host.Outcome.next.inj h)
  | tick => exact step_keeps_inv hs (step_of_command_tick h)
  | frameTick | press | release => cases h; exact hs

theorem runCommands_keeps_inv {cs : List HostCommand} {s t : State} (hs : s.Inv) (h : runCommands cs s = .next t) : t.Inv := by
  induction cs generalizing s with
  | nil => cases h; exact hs
  | cons c cs ih =>
    obtain ⟨⟨s', r⟩, hc⟩ := command_next c s
    rw [runCommands, hc] at h
    exact ih (command_keeps_inv hs hc) h

/-- Settles O18: command by command; a list of commands by induction, from reset, which meets the invariant. -/
theorem hostCommandsKeepTheInvariant : Obligations.HostCommandsKeepTheInvariant :=
  ⟨fun _ _ _ _ => command_keeps_inv, fun _ _ => runCommands_keeps_inv (resetMeetsTheInvariant true)⟩

end Sys2Proof.Machine
end

section
/-! Proofs of the statements about the timers (43_timers.md): the three instructions that read or set them, and that no tick reads the
sound timer. -/

namespace Sys2Proof.Machine

/-! ## The timer instructions -/

/-- The sound output in numbers (10_state.md R25). -/
theorem State.sound_iff (s : State) : s.sound = true ↔ s.st.toNat ≠ 0 :=
  bne_iff_ne.trans (not_congr BitVec.toNat_inj.symm)

/-- Settles O43: LD Vx, DT writes a register with DT, and the two others write one timer with V[x]. -/
theorem timerAccessors : Obligations.TimerAccessors := fun s x =>
  ⟨complete_setV_onlyRegs s x s.dt, rfl, _, rfl, rfl, State.sound_iff _⟩

/-! ## The shared operations do not read ST -/

theorem State.getV_with_st (s : State) (b : Byte) (r : RegIdx) : State.getV { s with st := b } r = s.getV r := rfl

/-- Drawing sprite rows commutes with a change of ST. -/
theorem drawRows_with_st (xs n a ys : Nat) (hit : Bool) (s : State) (b : Byte) :
    drawRows xs n a ys hit { s with st := b } =
      ({ (drawRows xs n a ys hit s).1 with st := b }, (drawRows xs n a ys hit s).2) := by
  induction n generalizing a ys hit s with
  | zero => rfl
  | succ n ih =>
    rcases Nat.lt_or_ge a 4096 with ha | ha
    · simp only [drawRows, memRead_of_lt ha]
      exact ih (a + 1) (ys + 1) _ { s with fb := (paintRow (memGet s.mem a) xs ys spriteColumns (s.fb, hit)).1 }
    · simp only [drawRows, memRead_of_ge ha]

/-- Loading V0..Vx gives the registers the same bytes whatever ST is. -/
theorem loadRegs_with_st (s : State) (a : Nat) (x : RegIdx) (b : Byte) :
    (loadBytes { s with st := b } a (regsUpTo x)).1.v = (loadBytes s a (regsUpTo x)).1.v :=
  State.v_ext fun q => (loadRegs_getV _ a x q).trans (loadRegs_getV s a x q).symm

/-! ## No instruction reads ST -/

/-- Both outcomes are next states, and those differ in ST only. -/
def SameUpToSt (o o' : Host.Outcome State Fault Refusal) : Prop :=
  ∃ t b, o = .next t ∧ o' = .next { t with st := b }

theorem complete_sameUpToSt (s : State) (b : Byte) : SameUpToSt (complete s) (complete { s with st := b }) :=
  ⟨_, b, rfl, rfl⟩

theorem raiseFault_sameUpToSt (f : Fault) (s : State) (b : Byte) :
    SameUpToSt (raiseFault f s) (raiseFault f { s with st := b }) :=
  ⟨_, b, rfl, rfl⟩

theorem complete_skipIf_sameUpToSt (s : State) (c : Bool) (b : Byte) :
    SameUpToSt (complete (s.skipIf c)) (complete (State.skipIf { s with st := b } c)) := by
  cases c with
  | false => exact complete_sameUpToSt s b
  | true => exact complete_sameUpToSt s.advance b

theorem finish_storeBytes_sameUpToSt (s : State) (a : Nat) (bs : List Byte) (b : Byte) :
    SameUpToSt (finish (storeBytes s a bs)) (finish (storeBytes { s with st := b } a bs)) :=
  ⟨_, b, finish_storeBytes .., finish_storeBytes ..⟩

theorem exec_call_sameUpToSt (nnn : Imm12) (s : State) (b : Byte) :
    SameUpToSt (exec (.call nnn) s) (exec (.call nnn) { s with st := b }) := by
  obtain ⟨hfull, -⟩ | ⟨hlt, -⟩ := push_cases s s.pc
  · exact ⟨_, b, exec_call_full nnn hfull, exec_call_full nnn hfull⟩
  · exact ⟨_, b, exec_call_of_lt nnn hlt, exec_call_of_lt (s := { s with st := b }) nnn hlt⟩

theorem exec_ret_sameUpToSt (s : State) (b : Byte) : SameUpToSt (exec .ret s) (exec .ret { s with st := b }) := by
  obtain ⟨hempty, -⟩ | ⟨j, hj, hs, -⟩ := pop_cases s
  · exact ⟨_, b, exec_ret_empty hempty, exec_ret_empty hempty⟩
  · exact ⟨_, b, exec_ret_of_succ (j := ⟨j, hj⟩) hs, exec_ret_of_succ (s := { s with st := b }) (j := ⟨j, hj⟩) hs⟩

theorem execLdVxK_sameUpToSt (x : RegIdx) (s : State) (b : Byte) :
    SameUpToSt (execLdVxK x s) (execLdVxK x { s with st := b }) := by
  have hkey : getPressed { s with st := b } = getPressed s := rfl
  unfold execLdVxK
  rw [hkey]
  cases getPressed s with
  | none => exact complete_sameUpToSt s.rewind b
  | some k => exact complete_sameUpToSt (s.setV x (BitVec.ofNat 8 k.val)) b

theorem execDrw_sameUpToSt (x y : RegIdx) (n : Nibble) (s : State) (b : Byte) :
    SameUpToSt (execDrw x y n s) (execDrw x y n { s with st := b }) := by
  simp only [execDrw, State.getV_with_st, drawRows_with_st]
  obtain ⟨s', f | hit⟩ := drawRows (s.getV x).toNat n.toNat s.i.toNat (s.getV y).toNat false s
  · exact raiseFault_sameUpToSt f s' b
  · exact complete_sameUpToSt (s'.setFlag hit) b

theorem execLoadRegs_sameUpToSt (x : RegIdx) (s : State) (b : Byte) :
    SameUpToSt (execLoadRegs x s) (execLoadRegs x { s with st := b }) := by
  refine ⟨_, b, finish_loadBytes s s.i.toNat (regsUpTo x), (finish_loadBytes _ s.i.toNat (regsUpTo x)).trans ?_⟩
  rw [loadRegs_with_st]

/-- The execute phase does not read ST. LD ST, Vx even forgets it: the two next states are then the same. -/
theorem exec_sameUpToSt (i : Instr) (s : State) (b : Byte) : SameUpToSt (exec i s) (exec i { s with st := b }) :=
  match i with
  | .seByte .. | .sneByte .. | .seReg .. | .sneReg .. | .skp _ | .sknp _ => complete_skipIf_sameUpToSt s _ b
  | .call nnn => exec_call_sameUpToSt nnn s b
  | .ret => exec_ret_sameUpToSt s b
  | .ldVxK x => execLdVxK_sameUpToSt x s b
  | .drw x y n => execDrw_sameUpToSt x y n s b
  | .ldB x => finish_storeBytes_sameUpToSt s s.i.toNat (decimalDigits (s.getV x)) b
  | .storeRegs x => finish_storeBytes_sameUpToSt s s.i.toNat ((regsUpTo x).map s.getV) b
  | .loadRegs x => execLoadRegs_sameUpToSt x s b
  | .ldStVx x => ⟨_, s.getV x, rfl, rfl⟩
  | .sys _ | .cls | .jp _ | .jpV0 _ | .ldI _ | .addI _ | .ldF _ | .ldByte .. | .addByte .. | .ldReg .. | .orReg .. | .andReg ..
  | .xorReg .. | .addReg .. | .subReg .. | .subnReg .. | .shr .. | .shl .. | .rnd .. | .ldVxDt _ | .ldDtVx _ => ⟨_, b, rfl, rfl⟩

/-- A tick does not read ST, by the three ways it goes; the fetch reads PC and memory only. -/
theorem step_sameUpToSt (s : State) (b : Byte) : SameUpToSt (step s) (step { s with st := b }) := by
  have hfetch : fetch { s with st := b } = fetch s := fetch_congr rfl rfl
  obtain ⟨f, hf, hstep⟩ | ⟨op, hf, hd, hstep⟩ | ⟨op, i, hf, hd, hstep⟩ := step_cases s
  · exact ⟨_, b, hstep, step_of_fetch_error (hfetch.trans hf)⟩
  · exact ⟨_, b, hstep, step_of_not_decode (hfetch.trans hf) fun i => by simp [hd]⟩
  · rw [hstep, step_of_decode (hfetch.trans hf) hd]
    exact exec_sameUpToSt i { s with pc := s.pc + 2 } b

/-- Settles O8: the two ticks answer next states that differ in ST only. -/
theorem soundTimerIsNeverRead : Obligations.SoundTimerIsNeverRead := by
  intro s t b h
  obtain ⟨u, c, hu, hu'⟩ := step_sameUpToSt s b
  cases hu.symm.trans h
  exact ⟨_, hu', rfl⟩

end Sys2Proof.Machine
end

section
/-! Proofs of the statements about the keypad (44_keypad.md): the host's `press` and `release`, and the instruction that waits for a
key. -/

namespace Sys2Proof.Machine

/-! ## Press and release -/

@[simp] theorem hostSetKey_keyDown (k : Key) (down : Bool) (s : State) (j : Key) :
    (hostSetKey k down s).keyDown j = if j = k then down else s.keyDown j := by
  unfold hostSetKey State.keyDown
  rw [Vector.getElem_set]
  exact ite_congr (propext (Fin.val_inj.trans eq_comm)) (fun _ => rfl) fun _ => rfl

/-- Settles O25: either command answers the state with one latch set. -/
theorem pressAndReleaseSetOneLatch : Obligations.PressAndReleaseSetOneLatch := fun k s =>
  ⟨⟨hostSetKey k true s, rfl, rfl, hostSetKey_keyDown k true s⟩, ⟨hostSetKey k false s, rfl, rfl, hostSetKey_keyDown k false s⟩⟩

/-! ## Waiting for a key -/

theorem exec_ldVxK_of_getPressed_some {s : State} {k : Key} (x : RegIdx) (h : getPressed s = some k) :
    exec (.ldVxK x) s = complete (s.setV x (BitVec.ofNat 8 k.val)) := by
  simp only [exec, execLdVxK, h]

theorem exec_ldVxK_of_getPressed_none {s : State} (x : RegIdx) (h : getPressed s = none) :
    exec (.ldVxK x) s = complete s.rewind := by
  simp only [exec, execLdVxK, h]

/-- PC less 2, in numbers (decision D9). -/
theorem State.rewind_pc_toNat (s : State) : s.rewind.pc.toNat = (s.pc.toNat + 65536 - 2) % 65536 := by
  rw [State.rewind_pc]
  bv_omega

/-- Settles O45: a key is pressed, and `getPressed` finds the lowest, or none is and it finds none. -/
theorem waitForKeyTakesTheLowestKey : Obligations.WaitForKeyTakesTheLowestKey := by
  refine fun s x => ⟨fun k hk hlow => ?_, fun hup => ?_⟩
  · rw [exec_ldVxK_of_getPressed_some x (getPressed_some.2 ⟨hk, hlow⟩)]
    exact complete_setV_onlyRegs s x (BitVec.ofNat 8 k.val)
  · rw [exec_ldVxK_of_getPressed_none x (getPressed_none.2 hup)]
    exact ⟨_, rfl, rfl, s.rewind_pc_toNat⟩

end Sys2Proof.Machine
end

section
/-! Proofs of the statements about the display (45_display.md): one cell painted, the screen cleared, and a sprite drawn from rows inside
memory. -/

namespace Sys2Proof.Machine

/-! ## Painting a cell and clearing the screen -/

theorem cellIndex_val (cx cy : Nat) : (cellIndex cx cy).val = cx % 64 + 64 * (cy % 32) := rfl

theorem paint_snd (fb : Vector Bool 2048) (cx cy : Nat) : (paint fb cx cy).2 = fb[(cellIndex cx cy).val] := rfl

/-- Settles O46: the cell at `cellIndex` is the one set, and the one read. -/
theorem paintTogglesOneCell : Obligations.PaintTogglesOneCell := by
  intro fb cx cy c hc
  rw [paint_getElem, ← cellIndex_val]
  refine ⟨?_, fun hne => if_neg (Ne.symm hne)⟩
  rintro rfl
  exact ⟨if_pos rfl, paint_snd fb cx cy⟩

@[simp] theorem clearScreen_getElem (c : Nat) (hc : c < 2048) : clearScreen[c] = false :=
  Vector.getElem_replicate ..

/-- Settles O47: CLS replaces the framebuffer by the cleared one and completes. -/
theorem clearScreenTurnsEveryCellOff : Obligations.ClearScreenTurnsEveryCellOff := fun _ =>
  ⟨_, rfl, rfl, clearScreen_getElem⟩

/-! ## Drawing a sprite -/

/-- With every row inside memory DRW completes: it toggles the covered cells and writes to VF whether one of them was lit. -/
theorem exec_drw_of_rows_inside {s : State} {n : Nibble} (x y : RegIdx) (hin : n.toNat = 0 ∨ s.i.toNat + n.toNat ≤ 4096) :
    ∃ fb hit, exec (.drw x y n) s = complete (({ s with fb := fb } : State).setFlag hit) ∧
      Toggled s.fb fb (SpriteCovers s.mem s.i.toNat (s.getV x).toNat (s.getV y).toNat n.toNat) ∧
      (hit = true ↔ SomeLit s.fb (SpriteCovers s.mem s.i.toNat (s.getV x).toNat (s.getV y).toNat n.toNat)) := by
  have hrows : n.toNat ≤ 4096 - s.i.toNat := by omega
  obtain ⟨hframe, htoggled, hinside, -⟩ :=
    drawRows_spec (s.getV x).toNat n.toNat s.i.toNat (s.getV y).toNat false s (by have := n.isLt; omega)
  obtain ⟨hit, hok, hlit⟩ := hinside hrows
  rw [Nat.min_eq_left hrows] at htoggled
  refine ⟨_, hit, ?_, htoggled, hlit.trans (by simp)⟩
  simp only [exec, execDrw]
  rw [← Prod.eta (drawRows _ _ _ _ _ _), hok, hframe]

/-- Settles O48: the cells and the collision are those of the blit, and VF is the only register written. -/
theorem drawTogglesTheCoveredCells : Obligations.DrawTogglesTheCoveredCells := by
  intro s x y n hin
  obtain ⟨fb, hit, hexec, htoggled, hlit⟩ := exec_drw_of_rows_inside x y hin
  have hregs (r : RegIdx) := State.getV_setFlag { s with fb := fb } r hit
  refine ⟨_, hexec, rfl, htoggled, fun r hr => (hregs r).trans (if_neg hr), fun h => ?_, fun h => ?_⟩
  · exact (hregs 15).trans (if_pos (hlit.2 h))
  · exact (hregs 15).trans (if_neg fun hhit => h (hlit.1 hhit))

end Sys2Proof.Machine
end

section
/-! Proof of the statement about the index register (46_index_memory.md section 1): the three addresses that its instructions write to I. -/

namespace Sys2Proof.Machine

/-! ## The addresses written to I -/

/-- ADD I wraps modulo 65536 (R98, decision D7). -/
theorem add_zextByte_toNat (a : Addr) (b : Byte) : (a + zextByte b).toNat = (a.toNat + b.toNat) % 65536 := by
  rw [BitVec.toNat_add, zextByte, BitVec.toNat_setWidth_of_le (by decide)]

theorem lowNibble_val (b : Byte) : (lowNibble b).val = b.toNat % 16 :=
  BitVec.extractLsb'_toNat 0 4 b

/-- The glyph address does not wrap: it is at most 5 * 15 above `FONT_BASE` (R99). -/
theorem glyphAddr_toNat (b : Byte) : (glyphAddr b).toNat = 0x000 + 5 * (b.toNat % 16) := by
  rw [glyphAddr, lowNibble_val, BitVec.toNat_ofNat]
  exact Nat.mod_eq_of_lt (by simp only [Config.fontBase, Config.glyphBytes]; omega)

/-! ## The statement -/

/-- Settles O51: each of the three replaces I by its address and completes. -/
theorem indexRegisterInstructions : Obligations.IndexRegisterInstructions := fun s nnn x =>
  ⟨⟨_, rfl, rfl, zextAddr_toNat nnn⟩, ⟨_, rfl, rfl, add_zextByte_toNat s.i (s.getV x)⟩, _, rfl, rfl, glyphAddr_toNat (s.getV x)⟩

end Sys2Proof.Machine
end

section
/-! Proofs of the statements about faults and the host interface (60_exceptions.md): which causes a fault of a tick has and what state it
leaves, and what the commands and the outputs answer. -/

namespace Sys2Proof.Machine

/-! ## The faults of an execute phase -/

/-- The instructions that access memory in their execute phase: DRW, LD B, LD [I] and LD Vx, [I]. -/
def AccessesMemory (i : Instr) : Prop :=
  ∃ x y n, i = .drw x y n ∨ i = .ldB x ∨ i = .storeRegs x ∨ i = .loadRegs x

/-- The ways the execute phase of an instruction faults from the state `s`: the fault, its cause, and the state it leaves. Only a
MemoryFault leaves a partial effect (decision D11). -/
inductive ExecFault (s : State) : Instr → Fault → State → Prop where
  | stackOverflow (nnn : Imm12) (hfull : s.sp = 16) :
      ExecFault s (.call nnn) .stackOverflow { s with result := .fault .stackOverflow }
  | stackUnderflow (hempty : s.sp = 0) : ExecFault s .ret .stackUnderflow { s with result := .fault .stackUnderflow }
  | memory {i : Instr} {a : Nat} (v : Vector Byte 16) (fb : Vector Bool 2048) (mem : Memory) (hi : AccessesMemory i)
      (hge : 4096 ≤ a) (hlt : a < 2 ^ 17) :
      ExecFault s i (.memoryFault a) { s with v := v, fb := fb, mem := mem, result := .fault (.memoryFault a) }

/-- The execute phase completes with Ok, or it faults in one of the ways of `ExecFault`. -/
def OkOrFault (s : State) (i : Instr) : Prop :=
  ∃ t, exec i s = .next t ∧ (t.result = .ok ∨ ∃ f, ExecFault s i f t)

theorem exec_call_okOrFault (nnn : Imm12) (s : State) : OkOrFault s (.call nnn) := by
  obtain ⟨hfull, -⟩ | ⟨hlt, -⟩ := push_cases s s.pc
  · exact ⟨_, exec_call_full nnn hfull, .inr ⟨_, .stackOverflow nnn hfull⟩⟩
  · exact ⟨_, exec_call_of_lt nnn hlt, .inl rfl⟩

theorem exec_ret_okOrFault (s : State) : OkOrFault s .ret := by
  obtain ⟨hempty, -⟩ | ⟨j, hj, hs, -⟩ := pop_cases s
  · exact ⟨_, exec_ret_empty hempty, .inr ⟨_, .stackUnderflow hempty⟩⟩
  · exact ⟨_, exec_ret_of_succ (j := ⟨j, hj⟩) hs, .inl rfl⟩

theorem execLdVxK_okOrFault (x : RegIdx) (s : State) : OkOrFault s (.ldVxK x) := by
  cases hkey : getPressed s with
  | none => exact ⟨_, exec_ldVxK_of_getPressed_none x hkey, .inl rfl⟩
  | some k => exact ⟨_, exec_ldVxK_of_getPressed_some x hkey, .inl rfl⟩

theorem execDrw_okOrFault (x y : RegIdx) (n : Nibble) (s : State) : OkOrFault s (.drw x y n) := by
  obtain ⟨fb, hit, hexec⟩ | ⟨fb, a, hge, hlt, hexec⟩ := execDrw_cases x y n s
  · exact ⟨_, hexec, .inl rfl⟩
  · exact ⟨_, hexec, .inr ⟨_, .memory s.v fb s.mem ⟨x, y, n, .inl rfl⟩ hge hlt⟩⟩

/-- A block transfer at I: the first address outside memory is I, or 4096 where I is below that. -/
theorem okOrFault_of_rangeFault {s : State} {i : Instr} {v : Vector Byte 16} {mem : Memory} {n : Nat} (hi : AccessesMemory i)
    (hexec : exec i s = .next { s with v := v, mem := mem, result := resultOf (rangeFault s.i.toNat n) }) : OkOrFault s i := by
  refine ⟨_, hexec, ?_⟩
  unfold rangeFault
  split
  · exact .inl rfl
  · exact .inr ⟨_, .memory v s.fb mem hi (le_max_right ..) (max_lt (by omega) (by decide))⟩

theorem exec_okOrFault (i : Instr) (s : State) : OkOrFault s i :=
  match i with
  | .call nnn => exec_call_okOrFault nnn s
  | .ret => exec_ret_okOrFault s
  | .ldVxK x => execLdVxK_okOrFault x s
  | .drw x y n => execDrw_okOrFault x y n s
  | .ldB x => okOrFault_of_rangeFault ⟨x, 0, 0, .inr (.inl rfl)⟩ (finish_storeBytes ..)
  | .storeRegs x => okOrFault_of_rangeFault ⟨x, 0, 0, .inr (.inr (.inl rfl))⟩ (finish_storeBytes ..)
  | .loadRegs x => okOrFault_of_rangeFault ⟨x, 0, 0, .inr (.inr (.inr rfl))⟩ (finish_loadBytes ..)
  | .sys _ | .cls | .jp _ | .jpV0 _ | .seByte .. | .sneByte .. | .seReg .. | .sneReg .. | .skp _ | .sknp _ | .ldI _ | .addI _
  | .ldF _ | .ldByte .. | .addByte .. | .ldReg .. | .orReg .. | .andReg .. | .xorReg .. | .addReg .. | .subReg .. | .subnReg ..
  | .shr .. | .shl .. | .rnd .. | .ldVxDt _ | .ldDtVx _ | .ldStVx _ => ⟨_, rfl, .inl rfl⟩

/-- The fault that a faulting execute phase raises is the one on the result port. -/
theorem ExecFault.result_eq {s t : State} {i : Instr} {f : Fault} (h : ExecFault s i f t) : t.result = .fault f := by
  cases h <;> rfl

/-- The inversion lemma of a faulting execute phase. -/
theorem execFault_of_exec {i : Instr} {s t : State} {f : Fault} (h : exec i s = .next t) (hf : t.result = .fault f) :
    ExecFault s i f t := by
  obtain ⟨u, hu, hok | ⟨g, hfault⟩⟩ := exec_okOrFault i s
  · cases hu.symm.trans h
    cases hok.symm.trans hf
  · cases hu.symm.trans h
    cases hfault.result_eq.symm.trans hf
    exact hfault

/-! ## The faults of a tick -/

/-- The fault of a fetch carries PC, or 4096 where PC is below that (20_memory.md R45, decision D28). -/
theorem memoryFault_of_fetch_error {s : State} {f : Fault} (h : fetch s = .error f) :
    ∃ a, f = .memoryFault a ∧ 4096 ≤ a ∧ a < 2 ^ 17 := by
  rcases Nat.lt_or_ge (s.pc.toNat + 1) 4096 with hlt | hge
  · cases (fetch_of_lt hlt).symm.trans h
  · cases (fetch_of_ge hge).symm.trans h
    exact ⟨_, rfl, le_max_right .., max_lt (by omega) (by decide)⟩

/-- The ways a tick faults, one per phase: the fault, its cause, and the state it leaves. -/
inductive TickFault (s : State) : Fault → State → Prop where
  | fetch {a : Nat} (hfetch : fetch s = .error (.memoryFault a)) (hge : 4096 ≤ a) (hlt : a < 2 ^ 17) :
      TickFault s (.memoryFault a) { s with result := .fault (.memoryFault a) }
  | decode {op : Opcode} (hfetch : fetch s = .ok op) (hd : decode op = .error (.illegal op)) :
      TickFault s (.decodeFault op) { s with pc := s.pc + 2, result := .fault (.decodeFault op) }
  | execute {op : Opcode} {i : Instr} {f : Fault} {t : State} (hfetch : fetch s = .ok op) (hd : decode op = .ok i)
      (hexec : ExecFault { s with pc := s.pc + 2 } i f t) : TickFault s f t

/-- The inversion lemma of a faulting tick. -/
theorem tickFault_of_step {s t : State} {f : Fault} (h : step s = .next t) (hf : t.result = .fault f) : TickFault s f t := by
  obtain ⟨g, hfetch, hstep⟩ | ⟨op, hfetch, hd, hstep⟩ | ⟨op, i, hfetch, hd, hstep⟩ := step_cases s
  · cases hstep.symm.trans h
    cases hf
    obtain ⟨a, rfl, hge, hlt⟩ := memoryFault_of_fetch_error hfetch
    exact .fetch hfetch hge hlt
  · cases hstep.symm.trans h
    cases hf
    exact .decode hfetch hd
  · exact .execute hfetch hd (execFault_of_exec (hstep.symm.trans h) hf)

/-- A tick that returns Ok came to its execute phase. -/
theorem fetch_decode_of_step_ok {s t : State} (h : step s = .next t) (hok : t.result = .ok) :
    ∃ op i, fetch s = .ok op ∧ decode op = .ok i := by
  obtain ⟨_, -, hstep⟩ | ⟨_, -, -, hstep⟩ | ⟨op, i, hfetch, hd, -⟩ := step_cases s
  · cases hstep.symm.trans h
    cases hok
  · cases hstep.symm.trans h
    cases hok
  · exact ⟨op, i, hfetch, hd⟩

/-- Settles O5: by what the tick returned, and for a fault by the phase that raised it. -/
theorem eachFaultHasItsCause : Obligations.EachFaultHasItsCause := by
  intro s t h
  cases hr : t.result with
  | ok => exact fetch_decode_of_step_ok h hr
  | fault f =>
    cases tickFault_of_step h hr with
    | fetch hfetch hge hlt => exact ⟨hge, hlt, .inl hfetch⟩
    | decode hfetch hd => exact ⟨hfetch, by simp [hd]⟩
    | execute hfetch hd hexec =>
      cases hexec with
      | stackOverflow nnn hfull => exact ⟨congrArg Fin.val hfull, _, nnn, hfetch, hd⟩
      | stackUnderflow hempty => exact ⟨congrArg Fin.val hempty, _, hfetch, hd⟩
      | memory _ _ _ hi hge hlt =>
        obtain ⟨x, y, n, hi⟩ := hi
        exact ⟨hge, hlt, .inr ⟨_, _, x, y, n, hfetch, hd, hi⟩⟩

/-- Settles O6: by the phase that raised the fault; the clauses about another phase are void. -/
theorem stateAfterEachFault : Obligations.StateAfterEachFault := by
  intro s t f h hf
  cases tickFault_of_step h hf with
  | fetch hfetch _ _ =>
    have hno : ¬ ∃ op, fetch s = .ok op := by simp [hfetch]
    exact ⟨fun _ => rfl, fun hop => absurd hop hno, fun hne => absurd rfl (hne _), fun hop => absurd hop hno⟩
  | decode hfetch _ => exact ⟨by simp [hfetch], fun _ => rfl, fun _ => rfl, fun _ => rfl⟩
  | execute hfetch _ hexec =>
    refine ⟨by simp [hfetch], ?_⟩
    cases hexec with
    | stackOverflow | stackUnderflow => exact ⟨fun _ => rfl, fun _ => rfl, fun _ => rfl⟩
    | memory => exact ⟨fun _ => rfl, fun hne => absurd rfl (hne _), fun _ => rfl⟩

/-! ## The host's commands and the outputs -/

/-- Settles O24: either timer is the one that `decrease` answers. -/
theorem frameTickCountsDown : Obligations.FrameTickCountsDown := fun s =>
  ⟨hostFrameTick s, rfl, rfl, decrease_toNat s.dt, decrease_toNat s.st⟩

/-- The command `tick` answers the step's state, and returns what stands on its result port. -/
theorem command_tick_of_step {s t : State} (h : step s = .next t) : command .tick s = .next (t, commandResultOf t.result) := by
  simp only [command, h]

theorem commandResultOf_eq_fault {r : TickResult} {f : Fault} (h : commandResultOf r = .fault f) : r = .fault f := by
  cases r with
  | ok => cases h
  | fault g => cases h; rfl

/-- `load` returns Ok or its own refusal, never a fault (20_memory.md R35). -/
theorem hostLoad_ne_fault (program : List Byte) (s : State) (f : Fault) : (hostLoad program s).2 ≠ .fault f := by
  unfold hostLoad
  split
  · exact nofun
  · exact nofun

/-- Settles O26: command by command. -/
theorem onlyTickReturnsFaults : Obligations.OnlyTickReturnsFaults := by
  intro c s t f h
  cases c with
  | tick =>
    have hstep := step_of_command_tick h
    have hres : commandResultOf t.result = .fault f :=
      congrArg Prod.snd (Host.Outcome.next.inj ((command_tick_of_step hstep).symm.trans h))
    exact ⟨rfl, hstep, commandResultOf_eq_fault hres⟩
  | load program => exact absurd (congrArg Prod.snd (Host.Outcome.next.inj h)) (hostLoad_ne_fault program s f)
  | reset | frameTick | press | release => cases h

/-- Settles O27: the port reads the cell of that index, and sound compares ST with 0. -/
theorem outputsAreDerived : Obligations.OutputsAreDerived := by
  refine fun s => ⟨s.sound_iff, ?_⟩
  rintro cx cy c hc rfl
  rfl

end Sys2Proof.Machine
end

section
/-! Proofs of the statements about the decoder (30_encoding.md section 3): it and the encoder undo each other, and the words that it
rejects. -/

namespace Sys2Proof

/-! ## Decode and encode -/

/-- Settles O9, by the round trip of each instruction. -/
theorem decodeOfEncodeIsTheInstruction : Obligations.DecodeOfEncodeIsTheInstruction := fun _ => decode_encode

/-- Settles O10, by the round trip of each word. -/
theorem encodeOfDecodeIsTheWord : Obligations.EncodeOfDecodeIsTheWord := fun _ _ h =>
  ⟨wellFormed_of_decode h, encode_of_decode h⟩

/-- Settles O12: the decoder is evaluated at each of the twelve words. -/
theorem wordsOfTheOpcodeMapDecode : Obligations.WordsOfTheOpcodeMapDecode := by
  unfold Obligations.WordsOfTheOpcodeMapDecode
  decide

/-! ## The fields of a word, in numbers -/

theorem fieldO_toNat (op : Opcode) : (fieldO op).toNat = op.toNat / 4096 := by
  rw [fieldO, BitVec.extractLsb'_toNat, Nat.shiftRight_eq_div_pow]
  exact Nat.mod_eq_of_lt (by omega)

theorem fieldN_toNat (op : Opcode) : (fieldN op).toNat = op.toNat % 16 :=
  BitVec.extractLsb'_toNat 0 4 op

theorem fieldKK_toNat (op : Opcode) : (fieldKK op).toNat = op.toNat % 256 :=
  BitVec.extractLsb'_toNat 0 8 op

/-! ## The illegal words -/

/-- Leading field 0 has no illegal word: SYS takes what CLS and RET leave. -/
theorem decode0_ok (op : Opcode) : ∃ i, decode0 op = .ok i := by
  unfold decode0
  split_ifs <;> exact ⟨_, rfl⟩

theorem decode8_illegal_iff (op : Opcode) :
    decode8 op = .error (.illegal op) ↔ (fieldN op).toNat ∈ [8, 9, 0xA, 0xB, 0xC, 0xD, 0xF] := by
  have hrest : ∀ n : Nibble, n.toNat ∈ [8, 9, 0xA, 0xB, 0xC, 0xD, 0xF] ↔ n ∉ [0x0#4, 0x1, 0x2, 0x3, 0x4, 0x5, 0x6, 0x7, 0xE] := by
    decide
  rw [hrest]
  unfold decode8
  split
  case h_10 => simp_all
  all_goals next hn => simp [hn]

theorem decodeE_illegal_iff (op : Opcode) : decodeE op = .error (.illegal op) ↔ (fieldKK op).toNat ∉ [0x9E, 0xA1] := by
  unfold decodeE
  split
  case h_3 => simp_all [← BitVec.toNat_inj]
  all_goals next hkk => simp [hkk]

theorem decodeF_illegal_iff (op : Opcode) :
    decodeF op = .error (.illegal op) ↔ (fieldKK op).toNat ∉ [0x07, 0x0A, 0x15, 0x18, 0x1E, 0x29, 0x33, 0x55, 0x65] := by
  unfold decodeF
  split
  case h_10 => simp_all [← BitVec.toNat_inj]
  all_goals next hkk => simp [hkk]

/-- The words of 30_encoding.md R50, by the numbers of their fields. -/
def IllegalFields (o n kk : Nat) : Prop :=
  ((o = 5 ∨ o = 9) ∧ n ≠ 0) ∨ (o = 8 ∧ n ∈ [8, 9, 0xA, 0xB, 0xC, 0xD, 0xF]) ∨ (o = 14 ∧ kk ∉ [0x9E, 0xA1]) ∨
    (o = 15 ∧ kk ∉ [0x07, 0x0A, 0x15, 0x18, 0x1E, 0x29, 0x33, 0x55, 0x65])

/-- The decoder rejects the illegal words and no other, by the major opcode: case `h_k` of the decoder is the major opcode `k - 1`. -/
theorem decode_illegal_iff (op : Opcode) :
    decode op = .error (.illegal op) ↔ IllegalFields (fieldO op).toNat (fieldN op).toNat (fieldKK op).toNat := by
  unfold decode IllegalFields
  split
  case h_1 ho =>
    obtain ⟨i, hi⟩ := decode0_ok op
    simp [ho, hi]
  case h_6 ho | h_10 ho => simp [ho, ← BitVec.toNat_inj]
  case h_9 ho => simp [ho, decode8_illegal_iff]
  case h_15 ho => simp [ho, decodeE_illegal_iff]
  case h_16 h0 h1 h2 h3 h4 h5 h6 h7 h8 h9 hA hB hC hD hE =>
    simp [majorOpcode_last h0 h1 h2 h3 h4 h5 h6 h7 h8 h9 hA hB hC hD hE, decodeF_illegal_iff]
  case h_2 ho | h_3 ho | h_4 ho | h_5 ho | h_7 ho | h_8 ho | h_11 ho | h_12 ho | h_13 ho | h_14 ho => simp [ho]

/-- Settles O11: a rejection names the word itself, so a word that is not illegal decodes. -/
theorem illegalWordsAreExactlyThese : Obligations.IllegalWordsAreExactlyThese := by
  intro op
  have hiff := decode_illegal_iff op
  rw [fieldO_toNat, fieldN_toNat, fieldKK_toNat] at hiff
  refine ⟨hiff.2, fun hlegal => ?_⟩
  cases hd : decode op with
  | ok i => exact ⟨i, rfl⟩
  | error r => exact absurd (hiff.1 (decode_error hd ▸ hd)) hlegal

end Sys2Proof
end

section
/-! Proofs of the statements that no tick reads the result port (60_exceptions.md section 3), that only control transfer changes PC
(10_state.md section 2), and that a program that has ended stays so (70_reset_and_hazards.md section 2). -/

namespace Sys2Proof.Machine

/-! ## The shared operations do not read the result port -/

/-- Drawing sprite rows reads memory and the framebuffer only, and changes the framebuffer only. -/
theorem drawRows_congr {s t : State} (xs n a ys : Nat) (hit : Bool) (hmem : s.mem = t.mem) (hfb : s.fb = t.fb) :
    drawRows xs n a ys hit s = ({ s with fb := (drawRows xs n a ys hit t).1.fb }, (drawRows xs n a ys hit t).2) := by
  induction n generalizing a ys hit s t with
  | zero => simp only [drawRows, ← hfb]
  | succ n ih =>
    rcases Nat.lt_or_ge a 4096 with ha | ha
    · simp only [drawRows, memRead_of_lt ha, ← hmem, ← hfb]
      exact ih (a + 1) (ys + 1) _ rfl rfl
    · simp only [drawRows, memRead_of_ge ha, ← hfb]

theorem drawRows_with_result (xs n a ys : Nat) (hit : Bool) (s : State) (r : TickResult) :
    drawRows xs n a ys hit { s with result := r } =
      ({ (drawRows xs n a ys hit s).1 with result := r }, (drawRows xs n a ys hit s).2) := by
  have hframe := congrArg Prod.fst (drawRows_congr xs n a ys hit (s := s) (t := s) rfl rfl)
  rw [drawRows_congr xs n a ys hit (s := { s with result := r }) (t := s) rfl rfl, hframe]

theorem complete_skipIf_with_result (s : State) (c : Bool) (r : TickResult) :
    complete (State.skipIf { s with result := r } c) = complete (s.skipIf c) := by
  cases c <;> rfl

theorem finish_storeBytes_with_result (s : State) (a : Nat) (bs : List Byte) (r : TickResult) :
    finish (storeBytes { s with result := r } a bs) = finish (storeBytes s a bs) := by
  rw [finish_storeBytes, finish_storeBytes]

/-! ## No instruction reads the result port -/

theorem exec_call_with_result (nnn : Imm12) (s : State) (r : TickResult) :
    exec (.call nnn) { s with result := r } = exec (.call nnn) s := by
  obtain ⟨hfull, -⟩ | ⟨hlt, -⟩ := push_cases s s.pc
  · rw [exec_call_full nnn hfull, exec_call_full (s := { s with result := r }) nnn hfull]
  · rw [exec_call_of_lt nnn hlt, exec_call_of_lt (s := { s with result := r }) nnn hlt]

theorem exec_ret_with_result (s : State) (r : TickResult) : exec .ret { s with result := r } = exec .ret s := by
  obtain ⟨hempty, -⟩ | ⟨j, hj, hs, -⟩ := pop_cases s
  · rw [exec_ret_empty hempty, exec_ret_empty (s := { s with result := r }) hempty]
  · rw [exec_ret_of_succ (j := ⟨j, hj⟩) hs, exec_ret_of_succ (s := { s with result := r }) (j := ⟨j, hj⟩) hs]

theorem execLdVxK_with_result (x : RegIdx) (s : State) (r : TickResult) :
    execLdVxK x { s with result := r } = execLdVxK x s := by
  have hkey : getPressed { s with result := r } = getPressed s := rfl
  unfold execLdVxK
  rw [hkey]
  cases getPressed s <;> rfl

theorem execDrw_with_result (x y : RegIdx) (n : Nibble) (s : State) (r : TickResult) :
    execDrw x y n { s with result := r } = execDrw x y n s := by
  have hgetV (q : RegIdx) : State.getV { s with result := r } q = s.getV q := rfl
  simp only [execDrw, hgetV, drawRows_with_result]
  obtain ⟨s', f | hit⟩ := drawRows (s.getV x).toNat n.toNat s.i.toNat (s.getV y).toNat false s
  · rfl
  · rfl

theorem execLoadRegs_with_result (x : RegIdx) (s : State) (r : TickResult) :
    execLoadRegs x { s with result := r } = execLoadRegs x s := by
  have hv : (loadBytes { s with result := r } s.i.toNat (regsUpTo x)).1.v = (loadBytes s s.i.toNat (regsUpTo x)).1.v :=
    State.v_ext fun q => (loadRegs_getV _ _ x q).trans (loadRegs_getV s _ x q).symm
  simp only [execLoadRegs, finish_loadBytes, hv]

/-- The execute phase writes the result port and does not read it. -/
theorem exec_with_result (i : Instr) (s : State) (r : TickResult) : exec i { s with result := r } = exec i s :=
  match i with
  | .seByte .. | .sneByte .. | .seReg .. | .sneReg .. | .skp _ | .sknp _ => complete_skipIf_with_result s _ r
  | .call nnn => exec_call_with_result nnn s r
  | .ret => exec_ret_with_result s r
  | .ldVxK x => execLdVxK_with_result x s r
  | .drw x y n => execDrw_with_result x y n s r
  | .ldB x => finish_storeBytes_with_result s s.i.toNat (decimalDigits (s.getV x)) r
  | .storeRegs x => finish_storeBytes_with_result s s.i.toNat ((regsUpTo x).map s.getV) r
  | .loadRegs x => execLoadRegs_with_result x s r
  | .sys _ | .cls | .jp _ | .jpV0 _ | .ldI _ | .addI _ | .ldF _ | .ldByte .. | .addByte .. | .ldReg .. | .orReg .. | .andReg ..
  | .xorReg .. | .addReg .. | .subReg .. | .subnReg .. | .shr .. | .shl .. | .rnd .. | .ldVxDt _ | .ldDtVx _ | .ldStVx _ => rfl

/-- Settles O7, by the three ways a tick goes; the fetch reads PC and memory only. -/
theorem resultPortIsNeverRead : Obligations.ResultPortIsNeverRead := by
  intro s r
  have hfetch : fetch { s with result := r } = fetch s := fetch_congr rfl rfl
  obtain ⟨f, hf, hstep⟩ | ⟨op, hf, hd, hstep⟩ | ⟨op, i, hf, hd, hstep⟩ := step_cases s
  · rw [hstep, step_of_fetch_error (hfetch.trans hf)]
  · rw [hstep, step_of_not_decode (hfetch.trans hf) fun i => by simp [hd]]
  · rw [hstep, step_of_decode (hfetch.trans hf) hd]
    exact exec_with_result i { s with pc := s.pc + 2 } r

/-! ## What may change PC -/

/-- The instructions that replace PC (42_control_flow.md R74 to R77). -/
def replacesPc : Instr → Bool
  | .jp _ | .call _ | .ret | .jpV0 _ => true
  | _ => false

/-- An effect leaves PC, or it is that of an instruction that replaces PC, of a taken skip, or of LD Vx, K with no key pressed. -/
theorem ExecEffect.pc_cases {i : Instr} {s t : State} (h : ExecEffect s i t) :
    t.pc = s.pc ∨ replacesPc i = true ∨ (isSkip i = true ∧ t.pc = s.pc + 2) ∨ ((∃ x, i = .ldVxK x) ∧ t.pc = s.pc - 2) := by
  cases h with
  | jp | jpV0 | call | ret => exact .inr (.inl rfl)
  | skip c hi =>
    cases c with
    | false => exact .inl rfl
    | true => exact .inr (.inr (.inl ⟨hi, rfl⟩))
  | wait x => exact .inr (.inr (.inr ⟨⟨x, rfl⟩, rfl⟩))
  | _ => exact .inl rfl

/-- Settles O30: by what the instruction's effect does to PC, and then by the instruction. -/
theorem pcChangesOnlyByControlTransfer : Obligations.PcChangesOnlyByControlTransfer := by
  intro i s t h
  obtain hpc | hi | ⟨hi, hpc⟩ | ⟨⟨x, rfl⟩, hpc⟩ := (effect_of_exec h).pc_cases
  · cases i with
    | jp | call | ret | jpV0 => trivial
    | seByte | sneByte | seReg | sneReg | skp | sknp | ldVxK => exact .inl hpc
    | _ => exact hpc
  · cases i with
    | jp | call | ret | jpV0 => trivial
    | _ => cases hi
  · cases i with
    | seByte | sneByte | seReg | sneReg | skp | sknp => exact .inr hpc
    | _ => cases hi
  · exact .inr hpc

/-- Settles O22: the jump puts PC back to where the fetch found it. -/
theorem endedProgramStaysEnded : Obligations.EndedProgramStaysEnded := by
  rintro s ⟨nnn, hfetch, hpc⟩
  rw [step_of_decode hfetch (decode_encode rfl)]
  simp only [exec, execJp, complete_eq, ← hpc]

end Sys2Proof.Machine
end

section
/-! Proofs of the statements about a sprite that runs off memory and one drawn twice (45_display.md section 2), and about the decimal
digits (46_index_memory.md section 2). -/

namespace Sys2Proof.Machine

/-! ## A sprite that runs off memory -/

/-- Where the `k`-th address from `a` is the first outside memory, it is `max a 4096`, and `k` addresses are inside. -/
theorem max_and_sub_of_first_outside {a k : Nat} (hout : 4096 ≤ a + k) (hin : ∀ j, j < k → a + j < 4096) :
    max a 4096 = a + k ∧ 4096 - a = k := by
  cases k with
  | zero => omega
  | succ j =>
    have hlast := hin j j.lt_succ_self
    omega

/-- DRW whose row `k` is the first outside memory toggles the cells of the rows before it and faults, with VF as it was (decision D11). -/
theorem exec_drw_of_row_outside {s : State} {n : Nibble} {k : Nat} (x y : RegIdx) (hk : k < n.toNat) (hout : 4096 ≤ s.i.toNat + k)
    (hin : ∀ j, j < k → s.i.toNat + j < 4096) :
    ∃ fb, exec (.drw x y n) s = raiseFault (.memoryFault (s.i.toNat + k)) { s with fb := fb } ∧
      Toggled s.fb fb (SpriteCovers s.mem s.i.toNat (s.getV x).toNat (s.getV y).toNat k) := by
  obtain ⟨hmax, hrows⟩ := max_and_sub_of_first_outside hout hin
  obtain ⟨hframe, htoggled, -, houtside⟩ :=
    drawRows_spec (s.getV x).toNat n.toNat s.i.toNat (s.getV y).toNat false s (by have := n.isLt; omega)
  rw [hrows, Nat.min_eq_right hk.le] at htoggled
  refine ⟨_, ?_, htoggled⟩
  simp only [exec, execDrw]
  rw [← Prod.eta (drawRows _ _ _ _ _ _), houtside (by omega), hframe, hmax]

/-- Settles O49: the fault is raised on the state with the cells of rows 0 to `k - 1` toggled. -/
theorem drawFaultPaintsTheRowsBefore : Obligations.DrawFaultPaintsTheRowsBefore := by
  intro s x y n k hk hout hin
  obtain ⟨fb, hexec, htoggled⟩ := exec_drw_of_row_outside x y hk hout hin
  exact ⟨_, hexec, rfl, htoggled⟩

/-! ## A sprite drawn twice -/

theorem Toggled.twice {fb fb₁ fb₂ : Vector Bool 2048} {P : Nat → Prop} (h₁ : Toggled fb fb₁ P) (h₂ : Toggled fb₁ fb₂ P) :
    fb₂ = fb := by
  refine Vector.ext fun c hc => ?_
  by_cases hP : P c
  · rw [(h₂ c hc).1 hP, (h₁ c hc).1 hP, Bool.not_not]
  · rw [(h₂ c hc).2 hP, (h₁ c hc).2 hP]

/-- A toggled cell is lit where it was off before. -/
theorem Toggled.someLit_iff {fb fb₁ : Vector Bool 2048} {P : Nat → Prop} (h : Toggled fb fb₁ P) :
    SomeLit fb₁ P ↔ ∃ c, ∃ hc : c < 2048, P c ∧ fb[c] = false :=
  exists_congr fun c => exists_congr fun hc => and_congr_right fun hP => by rw [(h c hc).1 hP, Bool.not_eq_true']

/-- Settles O50: the second draw has the same rows and coordinates, since the first changes nothing but the framebuffer and VF, and it
meets the cells that the first one toggled. -/
theorem drawingTwiceRestoresTheScreen : Obligations.DrawingTwiceRestoresTheScreen := by
  intro s x y n hx hy hin
  obtain ⟨t, hexec, hframe, htoggled, hregs, -⟩ := drawTogglesTheCoveredCells s x y n hin
  have hi : t.i = s.i := by rw [hframe]
  have hmem : t.mem = s.mem := by rw [hframe]
  obtain ⟨u, hexec', -, htoggled', -, hone, hzero⟩ := drawTogglesTheCoveredCells t x y n (by rwa [hi])
  rw [hi, hmem, hregs x hx, hregs y hy] at htoggled' hone hzero
  have hvf : u.getV 15 = 1 ↔ SomeLit t.fb (SpriteCovers s.mem s.i.toNat (s.getV x).toNat (s.getV y).toNat n.toNat) :=
    ⟨fun h => by_contra fun hno => absurd (h.symm.trans (hzero hno)) (by decide), hone⟩
  exact ⟨t, u, hexec, hexec', Toggled.twice htoggled htoggled', hvf.trans (Toggled.someLit_iff htoggled)⟩

/-! ## The decimal digits -/

@[simp] theorem decimalDigits_length (b : Byte) : (decimalDigits b).length = 3 := rfl

/-- Each digit fits in its byte. -/
theorem decimalDigits_toNat (b : Byte) :
    ((decimalDigits b).getD 0 0).toNat = b.toNat / 100 ∧ ((decimalDigits b).getD 1 0).toNat = b.toNat / 10 % 10 ∧
      ((decimalDigits b).getD 2 0).toNat = b.toNat % 10 :=
  ⟨Nat.mod_eq_of_lt (by omega), Nat.mod_eq_of_lt (by omega), Nat.mod_eq_of_lt (by omega)⟩

/-- Digit `k` is read back at `a + k`, if that is inside memory. -/
theorem memGet_putBytes_decimalDigits (m : Memory) (b : Byte) {a k : Nat} (hk : k < 3) (hin : a + k < 4096) :
    memGet (putBytes m a ((decimalDigits b).take (4096 - a))) (a + k) = (decimalDigits b).getD k 0 := by
  rw [memGet_putBytes_take, decimalDigits_length, if_pos (by omega), Nat.add_sub_cancel_left]

/-- Settles O52: the three digits are stored from I upward, those in memory. -/
theorem storeDecimalDigits : Obligations.StoreDecimalDigits := by
  intro s x
  obtain ⟨hhundreds, htens, hunits⟩ := decimalDigits_toNat (s.getV x)
  have hdigit {k : Nat} (hk : k < 3) (hin : s.i.toNat + k < 4096) :=
    congrArg BitVec.toNat (memGet_putBytes_decimalDigits s.mem (s.getV x) hk hin)
  refine ⟨_, finish_storeBytes s s.i.toNat (decimalDigits (s.getV x)), rfl, fun hin => ?_, fun hin => ?_, fun hin => ?_, fun a ha => ?_,
    fun hin => ?_, fun k hk hout hin => ?_⟩
  · exact (hdigit (k := 0) (by decide) hin).trans hhundreds
  · exact (hdigit (k := 1) (by decide) hin).trans htens
  · exact (hdigit (k := 2) (by decide) hin).trans hunits
  · rw [memGet_putBytes_take, decimalDigits_length, if_neg (by omega)]
  · exact resultOf_rangeFault_ok (by rw [decimalDigits_length]; omega)
  · exact resultOf_rangeFault_first hk hout hin

end Sys2Proof.Machine
end

section
/-! Proofs of the statements about the contents of memory after `load` and after `reset` (20_memory.md section 1), and about RND and the
key skips. -/

namespace Sys2Proof.Machine

/-! ## Memory after load and after reset -/

/-- Settles O23: the program fits, and reads back from 0x200 upward, or it does not fit. -/
theorem loadCopiesOrRefuses : Obligations.LoadCopiesOrRefuses := by
  refine fun p s => ⟨fun hfit => ⟨_, congrArg _ (if_pos hfit), rfl, fun j hj => ?_, fun a ha => ?_⟩, fun hlong => ?_⟩
  · rw [memGet_putBytes, if_pos (by simp only [Config.origin]; omega), Nat.add_sub_cancel_left, List.getD_eq_getElem _ _ hj]
  · rw [memGet_putBytes, if_neg (by simp only [Config.origin]; omega)]
  · exact congrArg _ (if_neg (Nat.not_le_of_lt hlong))

/-- Settles O20: the font is the first 80 bytes, which are compared glyph by glyph. -/
theorem fontGlyphsAfterReset : Obligations.FontGlyphsAfterReset := by
  intro d k
  refine (memGet_resetMemory true _).trans ?_
  rw [if_pos ⟨rfl, by omega⟩]
  revert d k
  decide

/-! ## RND and the key skips -/

/-- Settles O37: RND counts the draw and writes one register. -/
theorem randomByteUnderMask : Obligations.RandomByteUnderMask := fun s x kk =>
  ⟨_, rfl, rfl, fun r => State.getV_setV s x r (Config.randomByte s.draws &&& kk)⟩

/-- Settles O44: the key tested is the one that the low nibble names. -/
theorem keySkipsTestTheLowNibble : Obligations.KeySkipsTestTheLowNibble := by
  intro s x k hk
  obtain rfl : k = lowNibble (s.getV x) := Fin.ext (hk.trans (lowNibble_val _).symm)
  exact ⟨complete_skipIf_of_iff s Iff.rfl, complete_skipIf_of_iff_not s (by simp)⟩

end Sys2Proof.Machine
end
